-- ==== Sys2Proof/Word.lean ====
section
/-! DEFINITION. The widths of the Bloom filter engine's values (00_scope.md rules R6, R10, R12; 30_encoding.md
rules R61, R69). Everything is unsigned; bit 0 is the least significant bit. -/

namespace Sys2Proof

/-- A `u8`: a key byte, an opcode byte, a token's DATA field, a response token (00 R12, 30 R61, R69). -/
abbrev Byte := BitVec 8

/-- A `u32`: a seed, a hash state, a hash, the length counter (00 R6, R10, R12; 10 R27). -/
abbrev Word := BitVec 32

/-- One item of the IN channel: KIND in bits 9..8, DATA in bits 7..0 (30 R61). -/
abbrev Token := BitVec 10

end Sys2Proof
end

