-- ==== Sys2Proof/Machine/Opcodes.lean ====
section
/-! DEFINITION. The opcode bytes (30_encoding.md rules R64, R65). -/

namespace Sys2Proof.Machine

/-- 0x01 selects INSERT (30 R64). -/
def opInsert : Byte := 0x01

/-- 0x02 selects QUERY (30 R64). -/
def opQuery : Byte := 0x02

/-- Every other opcode byte is reserved (30 R65). The whole byte is compared (R64). -/
def isReserved (op : Byte) : Bool := op != opInsert && op != opQuery

end Sys2Proof.Machine
end

