-- ==== Sys2Proof/Config.lean ====
section
/-! DEFINITION. The configuration of an engine: the build-time parameters of 00_scope.md section 5, each legal by
construction, and the one free value of the model. This hardware's configuration is `Config.bfe`
(Sys2Proof/Machine/Bfe.lean). -/

namespace Sys2Proof

/-- What a hash failure during a QUERY does (00 R11, 42 R125). -/
inductive QueryErrPolicy where
  /-- The failed QUERY halts the engine: the source's reference behaviour. -/
  | fatal
  /-- The failed QUERY answers RESP_HASH_ERROR: the alternative the source allows. -/
  | propagate
  deriving DecidableEq, Repr

/-- The parameters a model takes as arguments (00 R6 to R11, 92 section 1). The four proof fields are the legal
ranges of 92 D16, so that an illegal configuration cannot be built. -/
structure Config where
  /-- `K`: how many hash functions and seed registers there are (00 R6). -/
  k : Nat
  /-- `WORD_BITS`: the width of a storage word (00 R7). -/
  wordBits : Nat
  /-- `WORD_COUNT`: how many storage words there are (00 R8). -/
  wordCount : Nat
  /-- `HASH32`: any total function of the key bytes and the seed (00 R10, 40 R87). -/
  hash32 : List Byte → Word → Word
  /-- How the working registers evaluate `HASH32` over a stream: what a complete 4-byte block does to a hash state
  (30 R72, 40 R90). DESIGN CHOICE, log 10. -/
  hashRound : Word → Word → Word
  /-- What END does with a hash state, the 0 to 3 bytes of the tail and the length (30 R73, 40 R94). DESIGN CHOICE,
  log 10. -/
  hashFinish : Word → List Byte → Word → Word
  /-- `QUERY_ERR_POLICY` (00 R11). -/
  queryErrPolicy : QueryErrPolicy
  k_pos : 0 < k
  wordBits_pos : 0 < wordBits
  wordCount_pos : 0 < wordCount
  capacity_le : wordBits * wordCount ≤ 2 ^ 32

/-- `C`, the total bit capacity, a mathematical integer (00 R9). -/
def Config.capacity (cfg : Config) : Nat := cfg.wordBits * cfg.wordCount

/-- No divisor of the hash derivation is zero (40 R85). -/
theorem Config.capacity_pos (cfg : Config) : 0 < cfg.capacity :=
  Nat.mul_pos cfg.wordBits_pos cfg.wordCount_pos

/-- FREE VALUE: what the host drives on `seed_in` at the reset that `State.reset` is the result of. A draw that no
rule constrains (10 R21, 70 R156, 93 U1): it has no body, so nothing can be proved of it. Log 4. -/
opaque Config.seedInAtReset (k : Nat) : BitVec (32 * k)

end Sys2Proof
end

