-- ==== Sys2Proof/Syntax.lean ====
section
/-! DEFINITION. The syntax of the engine's input: one constructor for each row of spec/opcode_table.json, that is, for
each kind of IN token (30_encoding.md rules R61 to R68), and the commands that frames denote (R63). -/

namespace Sys2Proof

/-- One decoded IN token. The DATA bits of END and ERR are kept, so that no bit of a token is lost, and no meaning
looks at them (30 R67, R68; 93 U4; log 15). -/
inductive Instr where
  /-- INSERT: the CMD token with opcode byte 0x01 (30 R64). -/
  | insert
  /-- QUERY: the CMD token with opcode byte 0x02 (30 R64). -/
  | query
  /-- RESERVED_CMD: a CMD token with any other opcode byte (30 R65). -/
  | reservedCmd (op : Byte)
  /-- BYTE: one key byte (30 R66). -/
  | byte (data : Byte)
  /-- END: the key was delivered whole (30 R67). -/
  | endOfKey (data : Byte)
  /-- ERR: the key stream failed (30 R68). -/
  | errOfKey (data : Byte)
  deriving DecidableEq, Repr

/-- How a frame ends (30 R63). -/
inductive Terminator where
  | whole
  | failed
  deriving DecidableEq, Repr

/-- The command `(op, key, term)` a frame denotes (30 R63). The key is any finite byte sequence, the empty one
included (00 R14). -/
structure Command where
  op : Byte
  key : List Byte
  term : Terminator
  deriving DecidableEq, Repr

end Sys2Proof
end

