-- ==== Sys2Proof/WellFormed.lean ====
section
/-! DEFINITION. Which terms of `Instr` are tokens: a RESERVED_CMD carries a reserved opcode byte, since the CMD tokens
0x001 and 0x002 are the INSERT and QUERY rows (30_encoding.md rules R64, R65). Every other term is a token. -/

namespace Sys2Proof

/-- The one check: the opcode byte of a RESERVED_CMD is neither 0x01 nor 0x02 (30 R65). -/
def Instr.wellFormed : Instr → Bool
  | .insert => true
  | .query => true
  | .reservedCmd op => Machine.isReserved op
  | .byte _ => true
  | .endOfKey _ => true
  | .errOfKey _ => true

end Sys2Proof
end

