-- ==== Sys2Proof/Decode.lean ====
section
/-! DEFINITION. The decoder of IN tokens, the encoder written from the same tables, and the decoder and encoder of
whole frames (30_encoding.md rules R61 to R68; spec/opcode_table.json). -/

namespace Sys2Proof

/-- `in_token & mask == match`, the test of one row of the opcode table. -/
def matchesRow (mask pattern t : Token) : Bool := t &&& mask == pattern

/-- `DATA`, bits 7..0 of a token (30 R61). -/
def tokenData (t : Token) : Byte := t.extractLsb' 0 8

/-- `KIND`, bits 9..8 of a token (30 R61). -/
def tokenKind (t : Token) : BitVec 2 := t.extractLsb' 8 2

/-- The rows of the opcode table, tried in its order: INSERT, QUERY, RESERVED_CMD, BYTE, END, ERR. All four values of
KIND are defined, so the last row takes what is left (30 R62). -/
def decode (t : Token) : Instr :=
  if matchesRow 0x3FF 0x001 t then .insert
  else if matchesRow 0x3FF 0x002 t then .query
  else if matchesRow 0x300 0x000 t then .reservedCmd (tokenData t)
  else if matchesRow 0x300 0x100 t then .byte (tokenData t)
  else if matchesRow 0x300 0x200 t then .endOfKey (tokenData t)
  else .errOfKey (tokenData t)

/-- Why a number is not an IN token. -/
inductive DecodeError where
  /-- It has a bit above bit 9; a token has 10 bits (30 R61). -/
  | widerThanToken
  deriving DecidableEq, Repr

/-- A number read as a token: its 10 bits, and no bit above them (30 R61). -/
def decodeWord (w : Nat) : Except DecodeError Instr :=
  if w < 2 ^ 10 then .ok (decode (BitVec.ofNat 10 w)) else .error .widerThanToken

/-- What the decoder reads from a row's bits. A token is one 10-bit word, which the table's whole bytes round up to
16 bits; the six bits above the token must be 0 (log 17). -/
def decodeTableWord (_nbits w : Nat) : Option Instr :=
  match decodeWord w with
  | .ok i => some i
  | .error _ => none

/-- A token from its two fields (30 R61). -/
def mkToken (kind : BitVec 2) (data : Byte) : Token := kind ++ data

/-- The token with KIND 0b00 and the given opcode byte (30 R62, R64, R65). -/
def cmdToken (op : Byte) : Token := mkToken 0b00#2 op

/-- The token of a decoded token (30 R62, R64 to R68). -/
def encode : Instr → Token
  | .insert => cmdToken Machine.opInsert
  | .query => cmdToken Machine.opQuery
  | .reservedCmd op => cmdToken op
  | .byte d => mkToken 0b01#2 d
  | .endOfKey d => mkToken 0b10#2 d
  | .errOfKey d => mkToken 0b11#2 d

/-- The token that closes a frame; a host sends DATA 0 (30 R67, R68). -/
def terminatorToken : Terminator → Token
  | .whole => encode (.endOfKey 0)
  | .failed => encode (.errOfKey 0)

/-- The BYTE tokens of a key, in order (30 R63, R66). -/
def keyTokens (key : List Byte) : List Token := key.map fun b => encode (.byte b)

/-- The frame of a command: one CMD token, the key's BYTE tokens, one terminator (30 R63). -/
def frameTokens (c : Command) : List Token :=
  cmdToken c.op :: (keyTokens c.key ++ [terminatorToken c.term])

/-- The opcode byte of a CMD token (30 R64, R65). -/
def Instr.opcode? : Instr → Option Byte
  | .insert => some Machine.opInsert
  | .query => some Machine.opQuery
  | .reservedCmd op => some op
  | .byte _ => none
  | .endOfKey _ => none
  | .errOfKey _ => none

/-- The key bytes and the terminator that follow a CMD token, and the tokens after the frame. A CMD token before the
terminator breaks the frame (30 R75), so this is then no frame. -/
def decodeKey : List Token → Option (List Byte × Terminator × List Token)
  | [] => none
  | t :: ts =>
    match decode t with
    | .insert => none
    | .query => none
    | .reservedCmd _ => none
    | .byte b => (decodeKey ts).map fun r => (b :: r.1, r.2)
    | .endOfKey _ => some ([], .whole, ts)
    | .errOfKey _ => some ([], .failed, ts)

/-- The command of the frame at the front of a token sequence, and the tokens after it: the end is found by the first
END or ERR, never by a length field (30 R63). -/
def decodeFrame : List Token → Option (Command × List Token)
  | [] => none
  | t :: ts =>
    match (decode t).opcode?, decodeKey ts with
    | some op, some (key, term, rest) => some (⟨op, key, term⟩, rest)
    | _, _ => none

end Sys2Proof
end

