-- ==== Sys2Proof/Machine/Hash.lean ====
section
/-! DEFINITION. MurmurHash3 x86_32 (40_hash_derivation.md section 3, rules R85, R86, R88 to R94) and the block shape it
shares with any streaming hash of the pipeline. PRESUMED: the spec marks the algorithm as general knowledge, its own
decision D8; log 9. -/

namespace Sys2Proof.Machine

/-- 40 R88. -/
def murmurC1 : Word := 0xCC9E2D51
/-- 40 R88. -/
def murmurC2 : Word := 0x1B873593
/-- 40 R88, the state addend `N`. -/
def murmurN : Word := 0xE6546B64
/-- 40 R88, the first finaliser multiplier. -/
def murmurF1 : Word := 0x85EBCA6B
/-- 40 R88, the second finaliser multiplier. -/
def murmurF2 : Word := 0xC2B2AE35

/-- Left rotation of a 32-bit value by 1 to 31 (40 R86). -/
def rotl32 (x : Word) (r : Nat) : Word := (x <<< r) ||| (x >>> (32 - r))

/-- Bytes as a 32-bit word, the first byte least significant, each byte zero-extended: `block` of four bytes (40 R89)
and `tailword` of one to three (40 R91, R94). -/
def leWord : List Byte → Word
  | [] => 0
  | b :: bs => b.setWidth 32 ||| (leWord bs <<< 8)

/-- The 32-bit little-endian word of four key bytes (40 R89). -/
def block (t : List Byte) : Word := leWord t

/-- The tail word of one to three key bytes (40 R91, R94). -/
def tailword (t : List Byte) : Word := leWord t

/-- 40 R90. -/
def scramble (w : Word) : Word := rotl32 (w * murmurC1) 15 * murmurC2

/-- 40 R90: the hash state after one block word. -/
def round (h w : Word) : Word := rotl32 (h ^^^ scramble w) 13 * 5 + murmurN

/-- 40 R93. -/
def fmix32 (h : Word) : Word :=
  let h := h ^^^ (h >>> 16)
  let h := h * murmurF1
  let h := h ^^^ (h >>> 13)
  let h := h * murmurF2
  h ^^^ (h >>> 16)

/-- 40 R94: the tail (R91; none for an empty tail), the length (R92), the finaliser (R93). -/
def finish (h : Word) (tail : List Byte) (len : Word) : Word :=
  let h := if tail.length > 0 then h ^^^ scramble (tailword tail) else h
  fmix32 (h ^^^ len)

/-- A hash state folded over the complete 4-byte blocks of a key, in order (40 R89, R90, R94). -/
def foldBlocks (rnd : Word → Word → Word) : List Byte → Word → Word
  | a :: b :: c :: d :: rest, h => foldBlocks rnd rest (rnd h (block [a, b, c, d]))
  | _, h => h

/-- The last `n % 4` bytes of a key of `n` bytes (40 R89). -/
def tailBytes : List Byte → List Byte
  | _ :: _ :: _ :: _ :: rest => tailBytes rest
  | t => t

/-- The whole-key function of a block round and a finish: blocks, then tail, then the length modulo 2^32 (40 R94). -/
def wholeKey (rnd : Word → Word → Word) (fin : Word → List Byte → Word → Word) (key : List Byte) (seed : Word) :
    Word :=
  fin (foldBlocks rnd key seed) (tailBytes key) (BitVec.ofNat 32 key.length)

/-- MurmurHash3 x86_32 of a key under a seed (40 R94). -/
def murmur3_32 (key : List Byte) (seed : Word) : Word := wholeKey round finish key seed

end Sys2Proof.Machine
end

