-- ==== Sys2Proof/Machine/Bfe.lean ====
section
/-! DEFINITION. This hardware's configuration: the table of 00_scope.md section 5. -/

namespace Sys2Proof

/-- `K = 3`, `WORD_BITS = 32`, `WORD_COUNT = 1`, `HASH32` = MurmurHash3 x86_32, `QUERY_ERR_POLICY` = FATAL
(00 R6 to R11, 40 R94; 92 D8, D12). -/
def Config.bfe : Config where
  k := 3
  wordBits := 32
  wordCount := 1
  hash32 := Machine.murmur3_32
  hashRound := Machine.round
  hashFinish := Machine.finish
  queryErrPolicy := .fatal
  k_pos := by decide
  wordBits_pos := by decide
  wordCount_pos := by decide
  capacity_le := by decide

/-- The working registers can evaluate a configuration's `HASH32` over a stream: it has the block shape of its round
and its finish (40 R94; 10 R27's remark that `H`, `TAIL`, `LEN` are those of the MurmurHash3 instantiation). -/
def Config.BlockHash (cfg : Config) : Prop :=
  ∀ (key : List Byte) (seed : Word), cfg.hash32 key seed = Machine.wholeKey cfg.hashRound cfg.hashFinish key seed

end Sys2Proof
end

