-- ==== Sys2Proof/Machine/Engine.lean ====
section
/-! DEFINITION. The engine's own state (10_state.md rules R20 to R27), generic in the configuration, and the
exceptions of 60_exceptions.md rule R130. -/

namespace Sys2Proof.Machine

/-- MODE (10 R24). Its binary encoding is not architectural. -/
inductive Mode where
  /-- No frame is open. -/
  | idle
  /-- A frame is open; the engine absorbs the key. -/
  | key
  /-- The engine has stopped for good after a fatal QUERY failure. -/
  | halted
  deriving DecidableEq, Repr

/-- The bit-array storage: `WORD_COUNT` words of `WORD_BITS` bits, never byte-addressed (10 R22, 20 R45 a; log 12). -/
abbrev Storage (cfg : Config) := Vector (BitVec cfg.wordBits) cfg.wordCount

/-- An index vector: `K` bit indices, each in `0 .. C-1` (40 R96, R97). -/
abbrev Indices (cfg : Config) := Vector (Fin cfg.capacity) cfg.k

/-- The state of the engine. -/
structure Engine (cfg : Config) where
  /-- `SEED[0..K-1]` (10 R20). -/
  seed : Vector Word cfg.k
  /-- `BITS[0..WORD_COUNT-1]` (10 R22). -/
  bits : Storage cfg
  /-- `MODE` (10 R24). -/
  mode : Mode
  /-- `OP`, the opcode byte of the open frame (10 R27). -/
  op : Byte
  /-- `H[0..K-1]`, the running hash states (10 R27). -/
  h : Vector Word cfg.k
  /-- `TAIL`, the key bytes since the last complete block (10 R27). -/
  tail : List Byte
  /-- `LEN`, the number of key bytes so far modulo 2^32 (10 R27). -/
  len : Word
  deriving DecidableEq, Repr

/-- The complete list of exceptions (60 R130). -/
inductive Exn where
  /-- The key stream of an INSERT failed, or of a QUERY under PROPAGATE (60 R131). -/
  | hashError
  /-- The frame's opcode byte is reserved (60 R132). -/
  | illegalCommand (op : Byte)
  /-- The key stream of a QUERY failed under FATAL (60 R133). -/
  | queryFatal
  deriving DecidableEq, Repr

/-- What the engine does with one offered token. -/
structure TokenResult (cfg : Config) where
  /-- The engine afterwards. -/
  engine : Engine cfg
  /-- The response token it emits, if any (30 R70). -/
  response : Option Byte
  /-- Whether it consumed the token (30 R75, R77). -/
  consumed : Bool
  deriving DecidableEq, Repr

end Sys2Proof.Machine
end

