-- ==== Sys2Proof/Machine/Construct.lean ====
section
/-! DEFINITION. Construction of a filter instance, the effect of the reset step on the engine
(70_reset_and_hazards.md rules R155, R156; reset values 10_state.md rule R34). -/

namespace Sys2Proof.Machine

/-- `seed_in[32*i+31 : 32*i]` (70 R156). -/
def seedSlice {k : Nat} (seedIn : BitVec (32 * k)) (i : Nat) : Word := seedIn.extractLsb' (32 * i) 32

/-- A new filter instance: every storage word zero, the seeds sampled from the port, MODE IDLE (70 R155). The working
registers are unspecified after reset (10 R34, R27); DESIGN CHOICE: zero, log 5. -/
def construct (cfg : Config) (seedIn : BitVec (32 * cfg.k)) : Engine cfg where
  seed := Vector.ofFn fun i => seedSlice seedIn i.val
  bits := Vector.ofFn fun _ => 0
  mode := .idle
  op := 0
  h := Vector.ofFn fun _ => 0
  tail := []
  len := 0

end Sys2Proof.Machine
end

