-- ==== Sys2Proof/Machine/State.lean ====
section
/-! DEFINITION. The machine's state: the engine at this hardware's configuration, its two channels and its reset
inputs (10_state.md; 30_encoding.md section 1), the reasons a step can stop, and the state right after reset. -/

namespace Sys2Proof.Machine

/-- Everything the spec gives the machine. -/
structure State where
  /-- SEED, BITS, MODE, OP, H, TAIL, LEN (10 R20 to R27). -/
  engine : Engine Config.bfe
  /-- The IN channel: tokens the host has sent and the engine has not consumed, oldest first (10 R29; log 1). -/
  inq : List Token
  /-- The OUT queue: responses the host has not yet taken, oldest first (10 R29; log 2). -/
  outq : List Byte
  /-- The `rst` input: the host has asserted reset and the engine has not performed the reset step (70 R155; log 3). -/
  rst : Bool
  /-- The value on the `seed_in` input, `32*K` bits (70 R156; log 3). -/
  seedIn : BitVec (32 * Config.bfe.k)
  deriving DecidableEq, Repr

/-- Why the machine stops with a fault. -/
inductive Fault where
  /-- The engine is HALTED: it consumes no token and has no enabled step other than reset (30 R77, 60 R133). Raised by
  every step without reset in HALTED, and by every token meaning there. Safe: the spec calls it a fault state, never a
  final state (log 7). -/
  | halted
  deriving DecidableEq, Repr

/-- Why the machine refuses an instruction. -/
inductive Refusal where
  /-- Raised by an arm of `exec` whose instruction has no meaning yet. Safe. No arm raises it. -/
  | notModelled (mnemonic : String)
  deriving DecidableEq, Repr

/-- The state right after a reset step with the given words on `seed_in`: nothing sent, nothing to take, `rst`
released (10 R34, 70 R155). -/
def State.resetWith (seedIn : BitVec (32 * Config.bfe.k)) : State where
  engine := construct Config.bfe seedIn
  inq := []
  outq := []
  rst := false
  seedIn := seedIn

/-- The machine right after reset. The seed words are a draw: a free value (10 R21, R34; 93 U1; log 4). -/
def State.reset : State := State.resetWith (Config.seedInAtReset Config.bfe.k)

end Sys2Proof.Machine
end

