-- ==== Sys2Proof/Machine/Flags.lean ====
section
/-! DEFINITION. The engine's one status flag, the outputs a host sees, and the response codes (10_state.md rule R25;
30_encoding.md rules R60, R69, R77). There are no condition codes and no error register (10 R25). -/

namespace Sys2Proof.Machine

/-- The `halted` output: 1 if and only if MODE is HALTED (10 R25). -/
def halted {cfg : Config} (e : Engine cfg) : Bool := e.mode == .halted

/-- `in_ready` at transaction level: the engine takes a token unless it is HALTED (30 R60, R77). What it is while `rst`
is asserted the spec leaves open; DESIGN CHOICE: the same view of MODE, so 1 in IDLE and KEY although the next step is
then the reset step and takes no token (log 24). -/
def inReady (s : State) : Bool := !halted s.engine

/-- `out_valid`: there is a response to take (30 R60). While `rst` is asserted, up to the reset step: log 24. -/
def outValid (s : State) : Bool := !s.outq.isEmpty

/-- `out_token`: the oldest response not yet taken (10 R29). While `rst` is asserted, up to the reset step: log 24. -/
def outToken (s : State) : Option Byte := s.outq.head?

/-- INSERT completed (30 R69). -/
def respOk : Byte := 0x00
/-- QUERY answer "definitely not present" (30 R69). -/
def respFalse : Byte := 0x10
/-- QUERY answer "possibly present" (30 R69). -/
def respTrue : Byte := 0x11
/-- The command failed with HashError (30 R69). -/
def respHashError : Byte := 0x80
/-- The frame's opcode is reserved (30 R69). -/
def respIllegal : Byte := 0x81

/-- `out_token[7]`: an error response (30 R69). -/
def respIsError (r : Byte) : Bool := r.getLsbD 7
/-- `out_token[4]`: a QUERY answer (30 R69). -/
def respIsAnswer (r : Byte) : Bool := r.getLsbD 4
/-- `out_token[0]`: the answer of a QUERY, or the error subcode (30 R69). -/
def respBit0 (r : Byte) : Bool := r.getLsbD 0

/-- The response of a QUERY whose bits are all set, or not (42 R120). -/
def queryResponse (present : Bool) : Byte := if present then respTrue else respFalse

end Sys2Proof.Machine
end

