-- ==== Sys2Proof/Machine/Operands.lean ====
section
/-! DEFINITION. The only operand form of the engine: a key becomes `K` bit indices, and a bit index a storage word and
a bit position (40_hash_derivation.md rules R95 to R102; 20_memory.md rules R40, R41). -/

namespace Sys2Proof.Machine

variable {cfg : Config}

/-- `h mod C`, the unsigned remainder (40 R95). In range by construction (40 R97). -/
def bitIndex (cfg : Config) (h : Word) : Fin cfg.capacity :=
  ⟨h.toNat % cfg.capacity, Nat.mod_lt _ cfg.capacity_pos⟩

/-- `j / WORD_BITS`: the storage word of a bit index (20 R40), in range (20 R43). -/
def wordOf (j : Fin cfg.capacity) : Fin cfg.wordCount :=
  ⟨j.val / cfg.wordBits, Nat.div_lt_of_lt_mul j.isLt⟩

/-- `j % WORD_BITS`: the bit position of a bit index (20 R40), below the width (20 R43). -/
def posOf (j : Fin cfg.capacity) : Fin cfg.wordBits :=
  ⟨j.val % cfg.wordBits, Nat.mod_lt _ cfg.wordBits_pos⟩

/-- `1 << b`, a word with exactly one bit set (20 R41). -/
def bitMask {w : Nat} (b : Fin w) : BitVec w := 1#w <<< b.val

/-- `hash_key`: slot `i` hashes the key under seed register `i` and reduces the hash (40 R96). -/
def hashKey (cfg : Config) (seed : Vector Word cfg.k) (key : List Byte) : Indices cfg :=
  Vector.ofFn fun i => bitIndex cfg (cfg.hash32 key seed[i])

/-- The index vector the pipeline holds at END: `finish(H[i], TAIL, LEN) mod C` (30 R73). -/
def pipelineIndices (e : Engine cfg) : Indices cfg :=
  Vector.ofFn fun i => bitIndex cfg (cfg.hashFinish e.h[i] e.tail e.len)

/-- `mask(IDX, w)`: the OR of `1 << (IDX[i] % WORD_BITS)` over the slots whose index falls in word `w` (40 R102). -/
def mask (idx : Indices cfg) (w : Fin cfg.wordCount) : BitVec cfg.wordBits :=
  idx.toList.foldl (fun m j => if wordOf j = w then m ||| bitMask (posOf j) else m) 0

end Sys2Proof.Machine
end

