-- ==== Sys2Proof/Machine/Ops.lean ====
section
/-! DEFINITION. The named operations the meanings share: storage access (20_memory.md rule R42), the endings of a
command and the one operation that takes an exception (60_exceptions.md rules R130 to R138), and the channels
(10_state.md rule R29). -/

namespace Sys2Proof.Machine

variable {cfg : Config}

/-- `MemRead(w, WORD_BITS)` (20 R42). -/
def memRead (bits : Storage cfg) (w : Fin cfg.wordCount) : BitVec cfg.wordBits := bits[w]

/-- `MemWrite(w, WORD_BITS, v)` (20 R42). -/
def memWrite (bits : Storage cfg) (w : Fin cfg.wordCount) (v : BitVec cfg.wordBits) : Storage cfg :=
  bits.set w.val v w.isLt

/-- The read-modify-write of one index: `BITS[w] <- BITS[w] | (1 << b)` (41 R110, 20 R44). -/
def setBit (bits : Storage cfg) (j : Fin cfg.capacity) : Storage cfg :=
  memWrite bits (wordOf j) (memRead bits (wordOf j) ||| bitMask (posOf j))

/-- `(BITS[w] >> b) & 1 == 1`: bit `j` of the filter (20 R40, 42 R120). -/
def testBit (bits : Storage cfg) (j : Fin cfg.capacity) : Bool :=
  (memRead bits (wordOf j) >>> (posOf j).val) &&& 1#cfg.wordBits == 1#cfg.wordBits

/-- The loop of INSERT over the slots, ascending (41 R110). -/
def insertBits (bits : Storage cfg) (idx : Indices cfg) : Storage cfg := idx.toList.foldl setBit bits

/-- The loop of QUERY over the slots, ascending, stopping at the first clear bit (42 R120, R121). -/
def queryLoop (bits : Storage cfg) : List (Fin cfg.capacity) → Bool
  | [] => true
  | j :: js => if testBit bits j then queryLoop bits js else false

/-- The answer of QUERY for an index vector (42 R120). -/
def queryBits (bits : Storage cfg) (idx : Indices cfg) : Bool := queryLoop bits idx.toList

/-- `MODE <- m`, everything else unchanged (30 section 6). -/
def Engine.setMode (e : Engine cfg) (m : Mode) : Engine cfg := { e with mode := m }

/-- A command ends normally: `emit(r); MODE <- IDLE` (41 R110, 42 R120). -/
def complete (e : Engine cfg) (r : Byte) : TokenResult cfg := ⟨e.setMode .idle, some r, true⟩

/-- TAKING AN EXCEPTION. It saves nothing and transfers control nowhere (60 R137). HashError and IllegalCommand emit
their code and leave MODE IDLE (60 R131, R132), so that there is nothing to return from (60 R138); QueryFatal emits
nothing and leaves MODE HALTED, which only reset ends (60 R133). The token that raised it is consumed. -/
def raise (x : Exn) (e : Engine cfg) : TokenResult cfg :=
  match x with
  | .hashError => ⟨e.setMode .idle, some respHashError, true⟩
  | .illegalCommand _ => ⟨e.setMode .idle, some respIllegal, true⟩
  | .queryFatal => ⟨e.setMode .halted, none, true⟩

/-- The engine part of the state replaced. -/
def State.withEngine (s : State) (e : Engine Config.bfe) : State := { s with engine := e }

/-- `emit`: a response goes to the back of the OUT queue (10 R29, 00 R13). -/
def State.emit (s : State) (r : Option Byte) : State := { s with outq := s.outq ++ r.toList }

/-- The oldest token of the IN channel is gone if it was consumed (10 R29; log 1). -/
def State.consume (s : State) (consumed : Bool) : State :=
  { s with inq := if consumed then s.inq.tail else s.inq }

/-- The state after the engine has dealt with the token at the front of the IN channel. -/
def State.apply (s : State) (r : TokenResult Config.bfe) : State :=
  ((s.withEngine r.engine).emit r.response).consume r.consumed

/-- The engine takes the token at the front of the IN channel, unless it is HALTED: then it consumes no token of any
kind, a fault state (30 R77). -/
def accept (f : Engine Config.bfe → TokenResult Config.bfe) (s : State) : Host.Outcome State Fault Refusal :=
  match s.engine.mode with
  | .halted => .fault .halted
  | .idle => .next (s.apply (f s.engine))
  | .key => .next (s.apply (f s.engine))

/-- The token the engine takes next (10 R29). -/
def fetch (s : State) : Option Token := s.inq.head?

/-- No token is offered: the engine waits and nothing changes (70 R165; log 8); in HALTED no step is enabled at all
(30 R77). -/
def waitForToken (s : State) : Host.Outcome State Fault Refusal :=
  match s.engine.mode with
  | .halted => .fault .halted
  | .idle => .next s
  | .key => .next s

/-- The reset step, enabled in every state and before every token (70 R155, R158): a new instance, the OUT queue
emptied; the tokens still in the IN channel stay there. -/
def resetStep (s : State) : State :=
  { s with engine := construct Config.bfe s.seedIn, outq := [], rst := false }

end Sys2Proof.Machine
end

