-- ==== Sys2Proof/Machine/Commands.lean ====
section
/-! DEFINITION. The two commands, on the index vector of their key (41_insert.md rule R110, 42_query.md rule R120). -/

namespace Sys2Proof.Machine

variable {cfg : Config}

/-- INSERT: set the bit of every index, then RESP_OK, then IDLE (41 R110). -/
def insertCommand (e : Engine cfg) (idx : Indices cfg) : TokenResult cfg :=
  complete { e with bits := insertBits e.bits idx } respOk

/-- QUERY: RESP_TRUE if every bit is set, else RESP_FALSE, then IDLE; nothing is written (42 R120). -/
def queryCommand (e : Engine cfg) (idx : Indices cfg) : TokenResult cfg :=
  complete e (queryResponse (queryBits e.bits idx))

end Sys2Proof.Machine
end

