-- ==== Sys2Proof/Machine/Framing.lean ====
section
/-! DEFINITION. The framing state machine: one operation per token kind, a case per MODE (30_encoding.md rules R71 to
R77), generic in the configuration. -/

namespace Sys2Proof.Machine

variable {cfg : Config}

/-- A frame opens (30 R71). The opcode is not checked here. -/
def openFrame (op : Byte) (e : Engine cfg) : Engine cfg :=
  { e with op := op, h := e.seed, tail := [], len := 0, mode := .key }

/-- The open frame takes one key byte; a fourth byte completes a block, which every hash state takes (30 R72). -/
def absorbByte (d : Byte) (e : Engine cfg) : Engine cfg :=
  let tail := e.tail ++ [d]
  let len := e.len + 1
  if tail.length = 4 then
    { e with h := Vector.ofFn fun i => cfg.hashRound e.h[i] (block tail), tail := [], len := len }
  else
    { e with tail := tail, len := len }

/-- The open frame closes with END: the command executes (30 R73). -/
def closeWhole (e : Engine cfg) : TokenResult cfg :=
  if isReserved e.op then raise (.illegalCommand e.op) e
  else if e.op = opInsert then insertCommand e (pipelineIndices e)
  else queryCommand e (pipelineIndices e)

/-- The open frame closes with ERR (30 R74; IllegalCommand has priority, 60 R136). -/
def closeFailed (e : Engine cfg) : TokenResult cfg :=
  if isReserved e.op then raise (.illegalCommand e.op) e
  else if e.op = opInsert then raise .hashError e
  else match cfg.queryErrPolicy with
    | .propagate => raise .hashError e
    | .fatal => raise .queryFatal e

/-- A CMD token. In an open frame it acts as ERR and then, unless that halted the engine, as CMD in IDLE; if it did,
the CMD token is not consumed (30 R71, R75, R77; log 22). -/
def onCmd (op : Byte) (e : Engine cfg) : TokenResult cfg :=
  match e.mode with
  | .idle => ⟨openFrame op e, none, true⟩
  | .key =>
    let broken := closeFailed e
    if broken.engine.mode = .halted then { broken with consumed := false }
    else ⟨openFrame op broken.engine, broken.response, true⟩
  | .halted => ⟨e, none, false⟩

/-- A BYTE token (30 R72, R76, R77). -/
def onByte (d : Byte) (e : Engine cfg) : TokenResult cfg :=
  match e.mode with
  | .idle => ⟨e, none, true⟩
  | .key => ⟨absorbByte d e, none, true⟩
  | .halted => ⟨e, none, false⟩

/-- An END token (30 R73, R76, R77). -/
def onEnd (e : Engine cfg) : TokenResult cfg :=
  match e.mode with
  | .idle => ⟨e, none, true⟩
  | .key => closeWhole e
  | .halted => ⟨e, none, false⟩

/-- An ERR token (30 R74, R76, R77). -/
def onErr (e : Engine cfg) : TokenResult cfg :=
  match e.mode with
  | .idle => ⟨e, none, true⟩
  | .key => closeFailed e
  | .halted => ⟨e, none, false⟩

/-- What an engine of any configuration does with a decoded token. -/
def onToken (i : Instr) (e : Engine cfg) : TokenResult cfg :=
  match i with
  | .insert => onCmd opInsert e
  | .query => onCmd opQuery e
  | .reservedCmd op => onCmd op e
  | .byte d => onByte d e
  | .endOfKey _ => onEnd e
  | .errOfKey _ => onErr e

end Sys2Proof.Machine
end

