-- ==== Sys2Proof/Machine/Tokens.lean ====
section
/-! DEFINITION. The meaning of each row of the opcode table on the whole state: the engine's token step, the response
to the OUT queue, the consumed token off the IN channel. -/

namespace Sys2Proof.Machine

/-- INSERT: the CMD token 0x001 (30 R64, R71, R75, R77). -/
def execInsert (s : State) : Host.Outcome State Fault Refusal := accept (onCmd opInsert) s

/-- QUERY: the CMD token 0x002 (30 R64, R71, R75, R77). -/
def execQuery (s : State) : Host.Outcome State Fault Refusal := accept (onCmd opQuery) s

/-- RESERVED_CMD: a CMD token with a reserved opcode byte; the frame it opens answers RESP_ILLEGAL when it closes
(30 R65, R71, R75, R77). -/
def execReservedCmd (op : Byte) (s : State) : Host.Outcome State Fault Refusal := accept (onCmd op) s

/-- BYTE (30 R66, R72, R76, R77). -/
def execByte (d : Byte) (s : State) : Host.Outcome State Fault Refusal := accept (onByte d) s

/-- END (30 R67, R73, R76, R77). DATA is ignored. -/
def execEndOfKey (_d : Byte) (s : State) : Host.Outcome State Fault Refusal := accept onEnd s

/-- ERR (30 R68, R74, R76, R77). DATA is ignored. -/
def execErrOfKey (_d : Byte) (s : State) : Host.Outcome State Fault Refusal := accept onErr s

end Sys2Proof.Machine
end

