-- ==== Sys2Proof/Machine/Dispatch.lean ====
section
/-! DEFINITION. The dispatch of a decoded token to its meaning: one arm for each row of spec/opcode_table.json. -/

namespace Sys2Proof.Machine

def exec (i : Instr) (s : State) : Host.Outcome State Fault Refusal :=
  match i with
  | .insert => Sys2Proof.Machine.execInsert s
  | .query => Sys2Proof.Machine.execQuery s
  | .reservedCmd op => Sys2Proof.Machine.execReservedCmd op s
  | .byte data => Sys2Proof.Machine.execByte data s
  | .endOfKey data => Sys2Proof.Machine.execEndOfKey data s
  | .errOfKey data => Sys2Proof.Machine.execErrOfKey data s

end Sys2Proof.Machine
end

