-- ==== Sys2Proof/Machine/Step.lean ====
section
/-! DEFINITION. One step of the machine: the reset step if the host asks for it, else the token at the front of the IN
channel (00_scope.md rule R5; 70_reset_and_hazards.md rule R158). -/

namespace Sys2Proof.Machine

/-- Reset has priority over every token step and every exception (70 R158); otherwise the engine takes the oldest
token, or waits for one (30 R60). -/
def step (s : State) : Host.Outcome State Fault Refusal :=
  if s.rst then .next (resetStep s)
  else match fetch s with
    | none => waitForToken s
    | some t => exec (decode t) s

/-- `s` with the token of number `w` at the front of the IN channel and `rst` released, so that the next step takes
exactly that token. It stands for the host sending it (log 16). -/
def State.withFetchWord (s : State) (_nbits w : Nat) : State :=
  { s with inq := BitVec.ofNat 10 w :: s.inq, rst := false }

end Sys2Proof.Machine
end

