-- ==== Sys2Proof/Machine/Frame.lean ====
section
/-! DEFINITION. The engine at frame level (30_encoding.md rule R82), for any configuration and so for any `HASH32`, and
the token level of an engine of any configuration as a function of a token sequence (R71 to R77). -/

namespace Sys2Proof.Machine

variable {cfg : Config}

/-- The body of 30 R82's `exec`: the next state and at most one response, in closed form. The working registers are
dead here and stay as they are. -/
def frameIdle (e : Engine cfg) (c : Command) : Engine cfg × Option Byte :=
  if isReserved c.op then (e, some respIllegal)
  else match c.term with
    | .failed =>
      if c.op = opInsert then (e, some respHashError)
      else match cfg.queryErrPolicy with
        | .propagate => (e, some respHashError)
        | .fatal => (e.setMode .halted, none)
    | .whole =>
      let idx := hashKey cfg e.seed c.key
      if c.op = opInsert then
        ({ e with bits := Vector.ofFn fun w => e.bits[w] ||| mask idx w }, some respOk)
      else
        (e, some (queryResponse (idx.toList.all fun j => testBit e.bits j)))

/-- 30 R82: one whole command as one step of an engine in IDLE; no step in HALTED, and none while a frame is open. -/
def frame (e : Engine cfg) (c : Command) : Option (Engine cfg × Option Byte) :=
  match e.mode with
  | .idle => some (frameIdle e c)
  | .key => none
  | .halted => none

/-- The left fold of the frame-level function over commands in order (20 R47), with the responses in order. -/
def frames (e : Engine cfg) : List Command → Option (Engine cfg × List Byte)
  | [] => some (e, [])
  | c :: cs =>
    match frame e c with
    | none => none
    | some (e', r) => (frames e' cs).map fun p => (p.1, r.toList ++ p.2)

/-- An engine of any configuration fed a token sequence: the engine afterwards, its responses, and the tokens it did
not consume (30 R71 to R77). -/
def feed (e : Engine cfg) : List Token → Engine cfg × List Byte × List Token
  | [] => (e, [], [])
  | t :: ts =>
    let r := onToken (decode t) e
    if r.consumed then
      let rest := feed r.engine ts
      (rest.1, r.response.toList ++ rest.2.1, rest.2.2)
    else (r.engine, r.response.toList, t :: ts)

end Sys2Proof.Machine
end

