-- ==== Sys2Proof/Machine/HostPort.lean ====
section
/-! DEFINITION. What the host can do to the machine between two steps (70_reset_and_hazards.md rules R160, R164;
10_state.md rule R29), and the script notation for it (30_encoding.md rule R80). -/

namespace Sys2Proof.Machine

/-- The host sends tokens: they go to the back of the IN channel (10 R29). -/
def hostSend (ts : List Token) (s : State) : State := { s with inq := s.inq ++ ts }

/-- The host takes the oldest response, if there is one (10 R29). -/
def hostTake (s : State) : Option (Byte × State) :=
  match s.outq with
  | [] => none
  | r :: rs => some (r, { s with outq := rs })

/-- The host drives `seed_in` and asserts `rst`; the engine's next step is the reset step (70 R155, R160). -/
def hostReset (seedIn : BitVec (32 * Config.bfe.k)) (s : State) : State :=
  { s with rst := true, seedIn := seedIn }

/-- The `seed_in` value that carries the given words: word `i` in bits `32*i+31 .. 32*i` (70 R156, 20 R45 d). -/
def packSeeds {k : Nat} (v : Vector Word k) : BitVec (32 * k) :=
  BitVec.ofNat (32 * k) (v.toList.foldr (fun w acc => w.toNat + 2 ^ 32 * acc) 0)

/-- One line of the script notation (30 R80). `CONTAINS` is a synonym of `QUERY`. -/
inductive ScriptLine where
  | reset (seeds : Vector Word Config.bfe.k)
  | insert (key : List Byte) (term : Terminator)
  | query (key : List Byte) (term : Terminator)
  | raw (op : Byte) (key : List Byte) (term : Terminator)
  | token (t : Token)
  deriving DecidableEq, Repr

/-- The tokens a script line stands for; RESET sends none (30 R80). -/
def ScriptLine.tokens : ScriptLine → List Token
  | .reset _ => []
  | .insert key term => frameTokens ⟨opInsert, key, term⟩
  | .query key term => frameTokens ⟨opQuery, key, term⟩
  | .raw op key term => frameTokens ⟨op, key, term⟩
  | .token t => [t]

/-- What the host does for a script line (30 R80). -/
def ScriptLine.perform (l : ScriptLine) (s : State) : State :=
  match l with
  | .reset seeds => hostReset (packSeeds seeds) s
  | .insert key term => hostSend (ScriptLine.tokens (.insert key term)) s
  | .query key term => hostSend (ScriptLine.tokens (.query key term)) s
  | .raw op key term => hostSend (ScriptLine.tokens (.raw op key term)) s
  | .token t => hostSend (ScriptLine.tokens (.token t)) s

/-- The key of a double-quoted string: the ASCII code of each character (30 R80). -/
def asciiKey (cs : List Char) : List Byte := cs.map fun c => BitVec.ofNat 8 c.toNat

/-- The value of a hexadecimal digit. -/
def hexDigit (c : Char) : Option Nat :=
  if '0' ≤ c ∧ c ≤ '9' then some (c.toNat - 48)
  else if 'A' ≤ c ∧ c ≤ 'F' then some (c.toNat - 55)
  else if 'a' ≤ c ∧ c ≤ 'f' then some (c.toNat - 87)
  else none

/-- The key of an `x"..."` literal: an even number of hexadecimal digits, the bytes in order (30 R80). -/
def hexKey : List Char → Option (List Byte)
  | [] => some []
  | [_] => none
  | a :: b :: rest => do
    let hi ← hexDigit a
    let lo ← hexDigit b
    let bs ← hexKey rest
    return BitVec.ofNat 8 (16 * hi + lo) :: bs

end Sys2Proof.Machine
end

