-- ==== Sys2Proof/Safety.lean ====
section
/-! DEFINITION. What counts as a safe run, and the invariants and relations that claims are stated with. -/

namespace Sys2Proof.Machine

variable {cfg : Config}

/-- The premise of every claim about a run: the engine is not HALTED (60 R133, 93 U2). -/
def Running (s : State) : Prop := s.engine.mode ≠ .halted

/-- The engine is between frames and the host does not ask for reset: the next token opens a frame. -/
def Ready (s : State) : Prop := s.engine.mode = .idle ∧ s.rst = false

/-- TAIL holds the bytes after the last complete block: `length(TAIL) = LEN mod 4`, so at most three (10 R27,
40 R101). The wrap of LEN does not disturb it. -/
def TailInv (e : Engine cfg) : Prop := e.mode = .key → e.tail.length = e.len.toNat % 4

/-- The working registers hold the streamed evaluation of a key (40 R101): the hash states folded over its complete
blocks from the seeds, its last bytes, its length modulo 2^32. -/
def Holds (e : Engine cfg) (key : List Byte) : Prop :=
  (∀ i : Fin cfg.k, e.h[i] = foldBlocks cfg.hashRound key e.seed[i]) ∧
    e.tail = tailBytes key ∧ e.len = BitVec.ofNat 32 key.length

/-- In an open frame the working registers hold some key, the bytes received so far (10 R27, 40 R101). -/
def StreamInv (e : Engine cfg) : Prop := e.mode = .key → ∃ key : List Byte, Holds e key

/-- Two engines that no rule can tell apart: the same but for the working registers outside an open frame, which are
unspecified there and never read (10 R27, 93 U8). -/
def SameButDead (e f : Engine cfg) : Prop :=
  e.seed = f.seed ∧ e.bits = f.bits ∧ e.mode = f.mode ∧
    (e.mode = .key → e.op = f.op ∧ e.h = f.h ∧ e.tail = f.tail ∧ e.len = f.len)

/-- Two machine states that no rule can tell apart. -/
def SameState (s t : State) : Prop :=
  SameButDead s.engine t.engine ∧ s.inq = t.inq ∧ s.outq = t.outq ∧ s.rst = t.rst ∧ s.seedIn = t.seedIn

/-- Every bit that is 1 before is 1 after (10 R23). -/
def BitsKept (before after : Storage cfg) : Prop := ∀ w : Fin cfg.wordCount, after[w] &&& before[w] = before[w]

/-- What the source permits of BITS after a failed INSERT of a key with the given indices: old bits kept, only bits of
those indices added (41 R113, 93 U3). This hardware is the least of it: BITS unchanged (log 11). -/
def FailedInsertEnvelope (idx : Indices cfg) (before after : Storage cfg) : Prop :=
  BitsKept before after ∧ ∀ w : Fin cfg.wordCount, (before[w] ||| mask idx w) &&& after[w] = after[w]

/-- The tokens of a sequence of commands, each a whole frame: a well-formed input (30 R63). -/
def commandTokens (cs : List Command) : List Token := (cs.map frameTokens).flatten

/-- A host that never reports a failed key stream: every frame it sends ends with END. For it hashing is total
(40 R100). -/
def NeverFails (cs : List Command) : Prop := ∀ c ∈ cs, c.term = .whole

/-- The OR, at word `w`, of the masks of the keys whose INSERT completes in a command sequence (41 R112). -/
def insertedMask (cfg : Config) (seed : Vector Word cfg.k) (w : Fin cfg.wordCount) :
    List Command → BitVec cfg.wordBits
  | [] => 0
  | c :: cs =>
    (if c.op = opInsert ∧ c.term = .whole then mask (hashKey cfg seed c.key) w else 0) |||
      insertedMask cfg seed w cs

end Sys2Proof.Machine
end

