-- ==== Sys2Proof/Certificates/Slice0/Obligations.lean ====
section
/-! DEFINITION. The statements of this row: what the numbered rules of spec/ say the engine does, each a `Prop` for the
provers. Statements about `exec` and `step` are about this hardware; statements about `onToken`, `frame`, `frames` and
`feed` hold for every configuration, any `HASH32` included. Outside an open frame OP, H, TAIL and LEN are unspecified
(10 R27): a statement about a token that closes a frame gives the state after it up to `SameState`, which leaves them
open, so it does not rest on what the model keeps in them (log 6). A step that emits a response never waits for room in
the OUT queue: it is unbounded, the model's choice (log 2), so a statement about how many steps complete something says
nothing of a bounded queue that the host leaves full (10 R29, 30 R60). -/

open Sys2Proof Sys2Proof.Machine

/-! ### Encodings -/

/-- Tokens written out bit by bit from the tables of 30 R61, R62, R64 to R68. -/
def Obligations.DecodeReadsTheTokensOfTheTables : Prop :=
  decode 0b00_0000_0001 = .insert ∧ decode 0b00_0000_0010 = .query ∧
  decode 0b00_0000_0000 = .reservedCmd 0x00 ∧ decode 0b00_0000_0011 = .reservedCmd 0x03 ∧
  decode 0b00_1111_1111 = .reservedCmd 0xFF ∧ decode 0b01_0110_1011 = .byte 0x6B ∧
  decode 0b01_0000_0000 = .byte 0x00 ∧ decode 0b10_0000_0000 = .endOfKey 0x00 ∧
  decode 0b10_1111_1111 = .endOfKey 0xFF ∧ decode 0b11_0000_0000 = .errOfKey 0x00

/-- 30 R61, R62, R64, R65: KIND is bits 9..8 and selects the kind, DATA is bits 7..0, and the whole opcode byte of a CMD
token is compared. -/
def Obligations.DecodeIsByKindAndWholeOpcodeByte : Prop :=
  ∀ (d : Byte),
    decode (0b00#2 ++ d) = (if d = 0x01 then .insert else if d = 0x02 then .query else .reservedCmd d) ∧
    decode (0b01#2 ++ d) = .byte d ∧ decode (0b10#2 ++ d) = .endOfKey d ∧ decode (0b11#2 ++ d) = .errOfKey d

/-- Decoder and encoder agree on tokens, both ways: no bit of a token is dropped, and every token is some well-formed
instruction's (30 R61 to R68). -/
def Obligations.TokenDecodeEncodeRoundTrip : Prop :=
  (∀ i : Instr, i.wellFormed = true → decode (encode i) = i) ∧
  (∀ t : Token, (decode t).wellFormed = true ∧ encode (decode t) = t)

/-- Decoder and encoder agree on whole frames, for every opcode byte, every key and both terminators, whatever tokens
follow (30 R63). -/
def Obligations.FrameDecodeEncodeRoundTrip : Prop :=
  ∀ (c : Command) (rest : List Token), decodeFrame (frameTokens c ++ rest) = some (c, rest)

/-- 30 R63: what the frame decoder accepts is a CMD token, the BYTE tokens of the key and one terminator, nothing else. -/
def Obligations.FrameDecoderAcceptsOnlyFrames : Prop :=
  ∀ (ts : List Token) (c : Command) (rest : List Token), decodeFrame ts = some (c, rest) →
    ∃ d : Byte, ts = (0b00#2 ++ c.op) :: (c.key.map (fun b => (0b01#2 ++ b : Token)) ++
      (match c.term with
        | .whole => (0b10#2 ++ d : Token)
        | .failed => (0b11#2 ++ d : Token)) :: rest)

/-! ### The step -/

/-- A step runs the decoded token: with reset released and the token of a well-formed instruction at the front of the IN
channel, the step is `exec` of that instruction at that very state (00 R5). The meaning itself takes the token off the
channel. -/
def Obligations.StepRunsTheDecodedToken : Prop :=
  ∀ (s : State) (i : Instr) (ts : List Token), i.wellFormed = true → s.rst = false → s.inq = encode i :: ts →
    step s = exec i s

/-- What the meanings do to the IN channel: a token step consumes exactly the token at its front, but for a CMD token
whose broken QUERY frame halted the engine, which stays (30 R75, R77). -/
def Obligations.TokenStepConsumesExactlyOneToken : Prop :=
  ∀ (i : Instr) (s t : State), exec i s = .next t →
    (t.engine.mode ≠ .halted → t.inq = s.inq.tail) ∧
    (t.engine.mode = .halted → t.inq = (match i with
      | .errOfKey _ => s.inq.tail
      | _ => s.inq))

/-- With no token offered and no reset asked for, a running engine waits: nothing changes. The model's choice (log 8). -/
def Obligations.EngineWaitsForAToken : Prop :=
  ∀ s : State, s.engine.mode ≠ .halted → s.rst = false → s.inq = [] → step s = .next s

/-! ### Reset -/

/-- 70 R155, R156, R158: in every state, whatever the MODE and the channels hold, asserted reset makes the next step the
construction of a new instance: every storage word zero, the seeds sampled from the port, MODE IDLE, the OUT queue
emptied. The tokens not yet consumed stay in the IN channel. -/
def Obligations.ResetStepConstructsANewInstance : Prop :=
  ∀ s : State, s.rst = true → ∃ t : State, step s = .next t ∧
    (∀ w : Fin Config.bfe.wordCount, t.engine.bits[w] = 0) ∧
    (∀ i : Fin Config.bfe.k, t.engine.seed[i] = s.seedIn.extractLsb' (32 * i.val) 32) ∧
    t.engine.mode = .idle ∧ t.outq = [] ∧ t.inq = s.inq ∧ t.rst = false ∧ t.seedIn = s.seedIn

/-- 10 R34: the state after reset, for every value on the seed port; `State.reset` is the one for the free value
`Config.seedInAtReset`. (OP, H, TAIL and LEN are unspecified there and are not claimed.) -/
def Obligations.ResetValues : Prop :=
  (∀ seedIn : BitVec (32 * Config.bfe.k),
    (∀ w : Fin Config.bfe.wordCount, (State.resetWith seedIn).engine.bits[w] = 0) ∧
    (∀ i : Fin Config.bfe.k, (State.resetWith seedIn).engine.seed[i] = seedIn.extractLsb' (32 * i.val) 32) ∧
    (State.resetWith seedIn).engine.mode = .idle ∧ halted (State.resetWith seedIn).engine = false ∧
    (State.resetWith seedIn).outq = []) ∧
  State.reset = State.resetWith (Config.seedInAtReset Config.bfe.k)

/-- 70 R157: two resets with the same words on the port give the same instance state, whatever went before (up to the
working registers, unspecified after reset, 10 R34). -/
def Obligations.EqualSeedPortsGiveEqualInstances : Prop :=
  ∀ s t s' t' : State, s.rst = true → t.rst = true → s.seedIn = t.seedIn → step s = .next s' → step t = .next t' →
    SameButDead s'.engine t'.engine ∧ s'.outq = t'.outq

/-- 70 R156 and the RESET line of 30 R80: any `K` words can be driven on the port, and register `i` samples word `i`. -/
def Obligations.SeedPortCarriesAnyWords : Prop :=
  ∀ (k : Nat) (v : Vector Word k) (i : Fin k), seedSlice (packSeeds v) i.val = v[i]

/-! ### The framing rules, one per MODE and token kind -/

/-- 30 R71: a CMD token of any opcode byte opens a frame in IDLE. INSERT, QUERY and RESERVED_CMD complete here. -/
def Obligations.CmdTokenOpensAFrame : Prop :=
  ∀ (i : Instr) (op : Byte) (s : State), i.opcode? = some op → s.engine.mode = .idle →
    exec i s = .next { s with
      engine := { s.engine with op := op, h := s.engine.seed, tail := [], len := 0, mode := .key }
      inq := s.inq.tail }

/-- 30 R75: in an open frame a CMD token behaves exactly as an ERR token followed, unless that halted the engine, by the
CMD token in IDLE; if it halted the engine the CMD token is not consumed. `u` is the state after the ERR token. -/
def Obligations.CmdInOpenFrameIsErrThenCmd : Prop :=
  ∀ (i : Instr) (op d : Byte) (s : State), i.opcode? = some op → s.engine.mode = .key →
    ∃ u : State, exec (.errOfKey d) { s with inq := encode (.errOfKey d) :: s.inq } = .next u ∧
      (u.engine.mode ≠ .halted → exec i s = exec i u) ∧
      (u.engine.mode = .halted → exec i s = .next u ∧ u.inq = s.inq)

/-- A CMD token in an open frame, by the open frame's opcode: an INSERT or reserved frame gets its error response and
the new frame opens; a QUERY frame halts the engine and the CMD token stays (30 R74, R75; 60 R131 to R133, R136). -/
def Obligations.CmdTokenBreaksAnOpenFrame : Prop :=
  ∀ (i : Instr) (op : Byte) (s : State), i.opcode? = some op → s.engine.mode = .key →
    (s.engine.op = 0x01 → exec i s = .next { s with
      engine := { s.engine with op := op, h := s.engine.seed, tail := [], len := 0, mode := .key }
      inq := s.inq.tail, outq := s.outq ++ [0x80] }) ∧
    (s.engine.op ≠ 0x01 → s.engine.op ≠ 0x02 → exec i s = .next { s with
      engine := { s.engine with op := op, h := s.engine.seed, tail := [], len := 0, mode := .key }
      inq := s.inq.tail, outq := s.outq ++ [0x81] }) ∧
    (s.engine.op = 0x02 → ∃ t : State, exec i s = .next t ∧
      SameState t { s with engine := { s.engine with mode := .halted } })

/-- 30 R72: an open frame absorbs a key byte; with the fourth byte since the last block every hash state takes the
block's round. BYTE completes here. -/
def Obligations.ByteTokenIsAbsorbed : Prop :=
  ∀ (d : Byte) (s : State), s.engine.mode = .key →
    exec (.byte d) s = .next { s with
      engine :=
        if (s.engine.tail ++ [d]).length = 4 then
          { s.engine with
            h := Vector.ofFn fun i => Machine.round s.engine.h[i] (block (s.engine.tail ++ [d]))
            tail := []
            len := s.engine.len + 1 }
        else { s.engine with tail := s.engine.tail ++ [d], len := s.engine.len + 1 }
      inq := s.inq.tail }

/-- 30 R76: BYTE, END and ERR with no open frame are consumed and discarded. -/
def Obligations.StrayTokensAreDiscarded : Prop :=
  ∀ (d : Byte) (s : State), s.engine.mode = .idle →
    exec (.byte d) s = .next { s with inq := s.inq.tail } ∧
    exec (.endOfKey d) s = .next { s with inq := s.inq.tail } ∧
    exec (.errOfKey d) s = .next { s with inq := s.inq.tail }

/-- END on an open INSERT frame completes: every word is ORed with the mask of the frame's index vector, RESP_OK is
emitted, MODE is IDLE; nothing else that the spec defines changes (30 R73, 41 R110). -/
def Obligations.EndExecutesInsert : Prop :=
  ∀ (d : Byte) (s : State), s.engine.mode = .key → s.engine.op = 0x01 →
    ∃ t : State, exec (.endOfKey d) s = .next t ∧ SameState t { s with
      engine := { s.engine with
        bits := Vector.ofFn fun w => s.engine.bits[w] ||| mask (pipelineIndices s.engine) w
        mode := .idle }
      inq := s.inq.tail, outq := s.outq ++ [0x00] }

/-- END on an open QUERY frame completes: the answer is TRUE iff every indexed bit is 1, MODE is IDLE, nothing else
that the spec defines changes (30 R73, 42 R120). -/
def Obligations.EndAnswersQuery : Prop :=
  ∀ (d : Byte) (s : State), s.engine.mode = .key → s.engine.op = 0x02 →
    ((∀ i : Fin Config.bfe.k,
        (s.engine.bits[wordOf (pipelineIndices s.engine)[i]]).getLsbD (posOf (pipelineIndices s.engine)[i]).val = true) →
      ∃ t : State, exec (.endOfKey d) s = .next t ∧ SameState t { s with
        engine := { s.engine with mode := .idle }, inq := s.inq.tail, outq := s.outq ++ [0x11] }) ∧
    ((∃ i : Fin Config.bfe.k,
        (s.engine.bits[wordOf (pipelineIndices s.engine)[i]]).getLsbD (posOf (pipelineIndices s.engine)[i]).val = false) →
      ∃ t : State, exec (.endOfKey d) s = .next t ∧ SameState t { s with
        engine := { s.engine with mode := .idle }, inq := s.inq.tail, outq := s.outq ++ [0x10] })

/-- The index vector at END, when the working registers hold the frame's key: `hash_key` of that key, that is, the
MurmurHash3 of the key under each seed modulo 32 (30 R73, 40 R95, R96, R101). `Holds` is an invariant of every run
(`StepKeepsTheStreamInvariant`). -/
def Obligations.IndicesAtEndAreHashKey : Prop :=
  ∀ (e : Engine Config.bfe) (key : List Byte), Holds e key →
    pipelineIndices e = hashKey Config.bfe e.seed key ∧
    ∀ i : Fin Config.bfe.k, (pipelineIndices e)[i].val = (murmur3_32 key e.seed[i]).toNat % 32

/-- 60 R132, R136: a frame with a reserved opcode answers RESP_ILLEGAL whether END or ERR closes it or a CMD token
breaks it, and never halts; BITS and SEED keep their values. -/
def Obligations.ReservedOpcodeAnswersIllegal : Prop :=
  ∀ (d : Byte) (s : State), s.engine.mode = .key → s.engine.op ≠ 0x01 → s.engine.op ≠ 0x02 →
    (∃ t : State, exec (.endOfKey d) s = .next t ∧ SameState t { s with
      engine := { s.engine with mode := .idle }, inq := s.inq.tail, outq := s.outq ++ [0x81] }) ∧
    (∃ t : State, exec (.errOfKey d) s = .next t ∧ SameState t { s with
      engine := { s.engine with mode := .idle }, inq := s.inq.tail, outq := s.outq ++ [0x81] }) ∧
    ∀ (i : Instr) (op : Byte), i.opcode? = some op → ∃ t : State, exec i s = .next t ∧
      t.outq = s.outq ++ [0x81] ∧ t.engine.bits = s.engine.bits ∧ t.engine.seed = s.engine.seed ∧
      t.engine.mode = .key ∧ t.engine.op = op

/-- A failed INSERT raises HashError: RESP_HASH_ERROR, MODE IDLE, BITS and SEED unchanged (41 R113, 60 R131); that lies
inside what the source permits, whatever key was meant (93 U3). -/
def Obligations.FailedInsertAnswersHashError : Prop :=
  ∀ (d : Byte) (s : State), s.engine.mode = .key → s.engine.op = 0x01 →
    ∃ t : State, exec (.errOfKey d) s = .next t ∧
      SameState t { s with
        engine := { s.engine with mode := .idle }, inq := s.inq.tail, outq := s.outq ++ [0x80] } ∧
      ∀ idx : Indices Config.bfe, FailedInsertEnvelope idx s.engine.bits t.engine.bits

/-- A failed QUERY raises QueryFatal on this hardware (FATAL): no response, MODE HALTED, `halted` is 1, BITS and SEED
keep their values; the same when a CMD token breaks the frame, and that token stays in the IN channel (60 R133, 42 R125,
30 R75). -/
def Obligations.FailedQueryHaltsTheEngine : Prop :=
  ∀ (d : Byte) (s : State), s.engine.mode = .key → s.engine.op = 0x02 →
    (∃ t : State, exec (.errOfKey d) s = .next t ∧ halted t.engine = true ∧
      SameState t { s with engine := { s.engine with mode := .halted }, inq := s.inq.tail }) ∧
    ∀ (i : Instr) (op : Byte), i.opcode? = some op → ∃ t : State, exec i s = .next t ∧ halted t.engine = true ∧
      SameState t { s with engine := { s.engine with mode := .halted } }

/-- The other policy (42 R125 under PROPAGATE, 60 R131): for every configuration with it, a failed QUERY answers
RESP_HASH_ERROR exactly as a failed INSERT does, and a CMD token that breaks the frame then opens its own. -/
def Obligations.PropagatedQueryFailureAnswersHashError : Prop :=
  ∀ (cfg : Config) (e : Engine cfg) (d : Byte), cfg.queryErrPolicy = .propagate → e.mode = .key → e.op = 0x02 →
    (∃ e' : Engine cfg, onToken (.errOfKey d) e = ⟨e', some 0x80, true⟩ ∧
      SameButDead e' { e with mode := .idle }) ∧
    ∀ (i : Instr) (op : Byte), i.opcode? = some op →
      onToken i e = ⟨{ e with op := op, h := e.seed, tail := [], len := 0, mode := .key }, some 0x80, true⟩

/-- 30 R77: in HALTED no token of any kind is consumed and no step but reset is enabled. -/
def Obligations.HaltedEngineConsumesNothing : Prop :=
  ∀ s : State, s.engine.mode = .halted →
    (∀ i : Instr, exec i s = .fault .halted) ∧ (s.rst = false → step s = .fault .halted) ∧
    (s.rst = true → ∃ t : State, step s = .next t ∧ t.engine.mode = .idle)

/-! ### Frames of the instructions: what stays as it was -/

/-- Every token but an END on an open INSERT frame stores nothing: every bit of the filter reads as before; no seed
register, reset input or port changes. BYTE leaves OP alone. (OP, H, TAIL, LEN are the working registers a CMD token
writes, and H, TAIL, LEN those a BYTE token writes, 30 R71, R72; outside an open frame they are unspecified.) -/
def Obligations.NonStoringTokensKeepBitsAndSeeds : Prop :=
  ∀ (i : Instr) (s t : State), exec i s = .next t →
    (s.engine.mode = .key → s.engine.op = 0x01 → ∀ d : Byte, i ≠ .endOfKey d) →
    (∀ j : Fin Config.bfe.capacity, testBit t.engine.bits j = testBit s.engine.bits j) ∧
    t.engine.bits = s.engine.bits ∧ t.engine.seed = s.engine.seed ∧ t.rst = s.rst ∧ t.seedIn = s.seedIn ∧
    (∀ d : Byte, i = .byte d → t.engine.op = s.engine.op ∧ t.engine.mode = s.engine.mode ∧ t.outq = s.outq)

/-- END on an open INSERT frame stores to the bits of the frame's index vector and to no other: each of those reads 1,
every other bit reads as before; seeds and ports are unchanged (41 R110, 20 R44). -/
def Obligations.InsertStoresOnlyTheBitsOfItsKey : Prop :=
  ∀ (d : Byte) (s t : State), s.engine.mode = .key → s.engine.op = 0x01 → exec (.endOfKey d) s = .next t →
    (∀ j : Fin Config.bfe.capacity,
      ((∃ i : Fin Config.bfe.k, (pipelineIndices s.engine)[i] = j) → testBit t.engine.bits j = true) ∧
      ((∀ i : Fin Config.bfe.k, (pipelineIndices s.engine)[i] ≠ j) →
        testBit t.engine.bits j = testBit s.engine.bits j)) ∧
    t.engine.seed = s.engine.seed ∧ t.rst = s.rst ∧ t.seedIn = s.seedIn

/-! ### Rules about every step -/

/-- 10 R20: no step but reset writes a seed register, in any configuration. -/
def Obligations.OnlyResetWritesSeeds : Prop :=
  (∀ s t : State, s.rst = false → step s = .next t → t.engine.seed = s.engine.seed) ∧
  (∀ (cfg : Config) (i : Instr) (e : Engine cfg), (onToken i e).engine.seed = e.seed)

/-- 10 R23: every step other than reset keeps every bit that is 1, in any configuration. -/
def Obligations.BitsAreOnlyEverSet : Prop :=
  (∀ s t : State, s.rst = false → step s = .next t →
    ∀ w : Fin Config.bfe.wordCount, t.engine.bits[w] &&& s.engine.bits[w] = s.engine.bits[w]) ∧
  (∀ (cfg : Config) (i : Instr) (e : Engine cfg), BitsKept e.bits (onToken i e).engine.bits)

/-- 10 R24: the transitions of MODE, all of them, for the token at the front of the IN channel. -/
def Obligations.ModeTransitions : Prop :=
  ∀ (s t : State) (tok : Token) (ts : List Token), s.rst = false → s.inq = tok :: ts → step s = .next t →
    (s.engine.mode = .idle →
      t.engine.mode = if (decode tok).opcode?.isSome then .key else .idle) ∧
    (s.engine.mode = .key → t.engine.mode = (match decode tok with
      | .byte _ => .key
      | .endOfKey _ => .idle
      | .errOfKey _ => if s.engine.op = 0x02 then .halted else .idle
      | _ => if s.engine.op = 0x02 then .halted else .key)) ∧
    s.engine.mode ≠ .halted

/-- 10 R25: `halted` is 1 iff MODE is HALTED; only a failed QUERY frame under FATAL sets it, and it emits nothing and
keeps BITS and SEED; under PROPAGATE no token sets it. -/
def Obligations.HaltedIsSetOnlyByAFailedQuery : Prop :=
  (∀ s t : State, s.rst = false → step s = .next t → halted t.engine = true →
    s.engine.mode = .key ∧ s.engine.op = 0x02 ∧ t.outq = s.outq ∧ t.engine.bits = s.engine.bits ∧
    t.engine.seed = s.engine.seed ∧
    ∃ tok ts, s.inq = tok :: ts ∧ (∀ d : Byte, decode tok ≠ .byte d) ∧ ∀ d : Byte, decode tok ≠ .endOfKey d) ∧
  (∀ (cfg : Config) (i : Instr) (e : Engine cfg), cfg.queryErrPolicy = .propagate → halted e = false →
    halted (onToken i e).engine = false) ∧
  (∀ (cfg : Config) (e : Engine cfg), halted e = true ↔ e.mode = .halted)

/-- 30 R70: a step that closes a frame emits exactly one response, at the back of the OUT queue, unless it halts the
engine; every other token step emits none. -/
def Obligations.OneResponsePerClosedFrame : Prop :=
  ∀ (s t : State) (tok : Token) (ts : List Token), s.rst = false → s.inq = tok :: ts → step s = .next t →
    ∃ rs : List Byte, t.outq = s.outq ++ rs ∧
      rs.length = (if s.engine.mode = .key ∧ (∀ d : Byte, decode tok ≠ .byte d) ∧ t.engine.mode ≠ .halted then 1 else 0)

/-- 30 R69: a step emits no response but the five of the table, and their fields are as the field view says. -/
def Obligations.OnlyTheFiveResponsesAreEmitted : Prop :=
  (∀ s t : State, s.rst = false → step s = .next t → ∃ rs : List Byte, t.outq = s.outq ++ rs ∧
    ∀ r ∈ rs, r ∈ ([0x00, 0x10, 0x11, 0x80, 0x81] : List Byte)) ∧
  (∀ r ∈ ([0x00, 0x10, 0x11, 0x80, 0x81] : List Byte),
    (respIsError r = true ↔ r = 0x80 ∨ r = 0x81) ∧ (respIsAnswer r = true ↔ r = 0x10 ∨ r = 0x11) ∧
    (respBit0 r = true ↔ r = 0x11 ∨ r = 0x81) ∧
    ∀ n ∈ [6, 5, 3, 2, 1], r.getLsbD n = false)

/-- 60 R137: a step that reports an exception, by its response or by halting, leaves BITS and SEED as they were. -/
def Obligations.ExceptionsArePrecise : Prop :=
  ∀ s t : State, s.rst = false → step s = .next t →
    (t.outq = s.outq ++ [0x80] ∨ t.outq = s.outq ++ [0x81] ∨ t.engine.mode = .halted) →
    t.engine.bits = s.engine.bits ∧ t.engine.seed = s.engine.seed

/-- 30 R67, R68, 93 U4: the DATA bits of END and ERR are ignored, at the level of tokens: two states whose channels
differ only there step alike. -/
def Obligations.TerminatorDataIsIgnored : Prop :=
  ∀ (s : State) (d d' : Byte) (ts : List Token) (i j : Instr),
    ((i = .endOfKey d ∧ j = .endOfKey d') ∨ (i = .errOfKey d ∧ j = .errOfKey d')) → s.rst = false →
    step { s with inq := encode i :: ts } = step { s with inq := encode j :: ts }

/-- The invariant of an open frame, kept by every step from every state: the working registers hold the streamed
evaluation of some key under the present seeds (10 R27, 40 R101), and TAIL holds `LEN mod 4` bytes, at most three. -/
def Obligations.StepKeepsTheStreamInvariant : Prop :=
  (∀ s t : State, StreamInv s.engine → step s = .next t → StreamInv t.engine) ∧
  (∀ (cfg : Config) (i : Instr) (e : Engine cfg), StreamInv e → StreamInv (onToken i e).engine) ∧
  (∀ (cfg : Config) (e : Engine cfg), StreamInv e → e.mode = .key →
    e.tail.length = e.len.toNat % 4 ∧ e.tail.length ≤ 3)

/-- The stream invariant holds after reset, for every value on the seed port. -/
def Obligations.StreamInvariantHoldsAtReset : Prop :=
  StreamInv State.reset.engine ∧
  ∀ seedIn : BitVec (32 * Config.bfe.k), StreamInv (State.resetWith seedIn).engine

/-- 10 R27: the working registers are never read outside an open frame. Two states that differ only in them there stop
alike, or step to two states that again differ only so, with the same channels: what the model keeps in them (logs 5
and 6) can never be observed. -/
def Obligations.DeadWorkingRegistersAreUnobservable : Prop :=
  ∀ s t : State, SameState s t →
    (∀ s' : State, step s = .next s' → ∃ t' : State, step t = .next t' ∧ SameState s' t') ∧
    (∀ f : Fault, step s = .fault f → step t = .fault f) ∧
    (∀ r : Refusal, step s ≠ .refused r)

/-! ### Storage and indices, any configuration -/

/-- 20 R40, R41: a bit index is its word and its position put together again, the mask of a position has exactly that
bit, and testing a bit reads it. -/
def Obligations.BitIndexNamesOneBitOfOneWord : Prop :=
  ∀ (cfg : Config) (j : Fin cfg.capacity) (bits : Storage cfg),
    (wordOf j).val * cfg.wordBits + (posOf j).val = j.val ∧
    (∀ n : Nat, (bitMask (posOf j)).getLsbD n = decide (n = (posOf j).val)) ∧
    testBit bits j = (bits[wordOf j]).getLsbD (posOf j).val

/-- 40 R102: bit `b` of `mask(IDX, w)` is 1 iff some slot's index is bit `b` of word `w`; a mask has at most `K` bits
set, and over all words together the masks have between 1 and `K`. -/
def Obligations.MaskHoldsExactlyTheIndexedBits : Prop :=
  ∀ (cfg : Config) (idx : Indices cfg),
    (∀ (w : Fin cfg.wordCount) (b : Fin cfg.wordBits), (mask idx w).getLsbD b.val = true ↔
      ∃ i : Fin cfg.k, idx[i].val / cfg.wordBits = w.val ∧ idx[i].val % cfg.wordBits = b.val) ∧
    (∀ w : Fin cfg.wordCount,
      (Finset.univ.filter fun b : Fin cfg.wordBits => (mask idx w).getLsbD b.val = true).card ≤ cfg.k) ∧
    1 ≤ (Finset.univ.filter fun p : Fin cfg.wordCount × Fin cfg.wordBits =>
      (mask idx p.1).getLsbD p.2.val = true).card ∧
    (Finset.univ.filter fun p : Fin cfg.wordCount × Fin cfg.wordBits =>
      (mask idx p.1).getLsbD p.2.val = true).card ≤ cfg.k

/-- 20 R50, 41 R110: the `K` read-modify-writes of INSERT, in whatever order of the slots, leave each word its old value
ORed with the mask. -/
def Obligations.InsertLoopIsOrWithMask : Prop :=
  ∀ (cfg : Config) (bits : Storage cfg) (idx : Indices cfg) (order : List (Fin cfg.capacity)),
    order.Perm idx.toList →
    ∀ w : Fin cfg.wordCount, (order.foldl setBit bits)[w] = bits[w] ||| mask idx w

/-- 42 R120, R121: the short-circuit loop of QUERY, in whatever order of the slots, answers 1 iff every indexed bit is
1, equivalently iff every word contains its mask. -/
def Obligations.QueryLoopIsAllBitsSet : Prop :=
  ∀ (cfg : Config) (bits : Storage cfg) (idx : Indices cfg) (order : List (Fin cfg.capacity)),
    order.Perm idx.toList →
    (queryLoop bits order = true ↔ ∀ i : Fin cfg.k, (bits[wordOf idx[i]]).getLsbD (posOf idx[i]).val = true) ∧
    (queryLoop bits order = true ↔ ∀ w : Fin cfg.wordCount, bits[w] &&& mask idx w = mask idx w)

/-- 41 R111: INSERT of bits that are all set leaves the storage unchanged, so a second INSERT of the same indices does
nothing. -/
def Obligations.InsertIsIdempotent : Prop :=
  ∀ (cfg : Config) (bits : Storage cfg) (idx : Indices cfg),
    (queryBits bits idx = true → insertBits bits idx = bits) ∧
    insertBits (insertBits bits idx) idx = insertBits bits idx ∧ queryBits (insertBits bits idx) idx = true

/-! ### The hash -/

/-- 40 R86: bit `n` of `x` becomes bit `(n + r) mod 32` of `rotl32(x, r)`. -/
def Obligations.RotateMovesEachBit : Prop :=
  ∀ (x : Word) (r n : Nat), 1 ≤ r → r ≤ 31 → n < 32 → (rotl32 x r).getLsbD ((n + r) % 32) = x.getLsbD n

/-- 40 R89, R91, R94: blocks and tail words are little-endian and bytes are zero-extended; block `q` is the bytes
`4q .. 4q+3`, taken in ascending order, and the tail is the last `n % 4` bytes. -/
def Obligations.KeyIsCutIntoLittleEndianBlocks : Prop :=
  (∀ a b c d : Byte, block [a, b, c, d] =
    a.setWidth 32 ||| (b.setWidth 32 <<< 8) ||| (c.setWidth 32 <<< 16) ||| (d.setWidth 32 <<< 24)) ∧
  (∀ a b c : Byte, tailword [a] = a.setWidth 32 ∧ tailword [a, b] = a.setWidth 32 ||| (b.setWidth 32 <<< 8) ∧
    tailword [a, b, c] = a.setWidth 32 ||| (b.setWidth 32 <<< 8) ||| (c.setWidth 32 <<< 16)) ∧
  (∀ (rnd : Word → Word → Word) (key : List Byte) (h : Word), foldBlocks rnd key h =
    (List.range (key.length / 4)).foldl (fun h q => rnd h (block ((key.drop (4 * q)).take 4))) h) ∧
  (∀ key : List Byte, tailBytes key = key.drop (4 * (key.length / 4)))

/-- The worked examples of 40 R86, R90, R91, R93, R94 and the empty key. -/
def Obligations.HashWorkedExamples : Prop :=
  rotl32 0x80000001 1 = 0x00000003 ∧ rotl32 0x12345678 15 = 0x2B3C091A ∧ rotl32 0x12345678 13 = 0x8ACF0246 ∧
  scramble 0x64636261 = 0x5B9433B7 ∧ Machine.round 0x00000000 0x64636261 = 0x86A7049E ∧
  scramble 0x0079656B = 0x6E2CE099 ∧ fmix32 0x00000001 = 0x514E28B7 ∧ fmix32 0xFFFFFFFF = 0x81F16F39 ∧
  murmur3_32 [0x6B, 0x65, 0x79] 0x00000000 = 0xE29C6A44 ∧ murmur3_32 [] 0x00000001 = 0x514E28B7

/-- 40 R95, R85: the reduction is the unsigned remainder modulo `C` in every configuration; on this hardware it is the
low five bits of the hash. -/
def Obligations.ReductionIsTheUnsignedRemainder : Prop :=
  (∀ (cfg : Config) (h : Word), (bitIndex cfg h).val = h.toNat % (cfg.wordBits * cfg.wordCount)) ∧
  (∀ h : Word, (bitIndex Config.bfe h).val = (h.extractLsb' 0 5).toNat)

/-- 40 R101: after the CMD token and the BYTE tokens of a key the working registers hold the streamed evaluation of that
key, in any configuration; and what END then computes from them on this hardware is `murmur3_32` of the whole key, so
its index vector is `hash_key` of the key. -/
def Obligations.StreamingEqualsWholeKey : Prop :=
  (∀ (cfg : Config) (e : Engine cfg) (op : Byte) (key : List Byte),
    Holds (key.foldl (fun e b => absorbByte b e) (openFrame op e)) key) ∧
  (∀ (e : Engine Config.bfe) (op : Byte) (key : List Byte) (i : Fin Config.bfe.k),
    let e' := key.foldl (fun e b => absorbByte b e) (openFrame op e)
    finish e'.h[i] e'.tail e'.len = murmur3_32 key e.seed[i] ∧ pipelineIndices e' = hashKey Config.bfe e.seed key)

/-! ### Whole commands -/

/-- 30 R82, every configuration whose working registers evaluate its `HASH32` (`BlockHash`, log 10): feeding an engine in IDLE the tokens of a
command consumes them all and gives the SEED, BITS, MODE and response of the frame-level function; the working
registers may differ, where they are dead. -/
def Obligations.TokenLevelRefinesFrameLevel : Prop :=
  ∀ (cfg : Config) (e : Engine cfg) (c : Command), cfg.BlockHash → e.mode = .idle →
    ∃ e' : Engine cfg, feed e (frameTokens c) = (e', (frameIdle e c).2.toList, []) ∧
      SameButDead e' (frameIdle e c).1

/-- 30 R82 on this hardware's machine: from IDLE, with a command's frame at the front of the IN channel, `n + 2` steps
complete it, with the frame-level function's SEED, BITS, MODE and response. -/
def Obligations.EveryCommandRunsToItsFrameLevelResult : Prop :=
  ∀ (s : State) (c : Command) (rest : List Token), Ready s → s.inq = frameTokens c ++ rest →
    ∃ t : State, Sys2Proof.core.run (c.key.length + 2) s = .next t ∧
      SameButDead t.engine (frameIdle s.engine c).1 ∧ t.outq = s.outq ++ (frameIdle s.engine c).2.toList ∧
      t.inq = rest ∧ t.rst = false ∧ t.seedIn = s.seedIn

/-- 42 R123, the source's headline guarantee, on the machine: if an INSERT frame of a key is followed by any tokens
whatever, well framed or not, that leave the engine in IDLE, a QUERY frame of the same key answers TRUE. -/
def Obligations.NoFalseNegatives : Prop :=
  ∀ (s u : State) (key : List Byte) (between rest : List Token), Ready s →
    s.inq = frameTokens ⟨0x01, key, .whole⟩ ++ (between ++ (frameTokens ⟨0x02, key, .whole⟩ ++ rest)) →
    Sys2Proof.core.run (key.length + 2 + between.length) s = .next u → u.engine.mode = .idle →
    ∃ t : State, Sys2Proof.core.run (key.length + 2) u = .next t ∧ t.outq = u.outq ++ [0x11] ∧ t.inq = rest

/-- 42 R123 at frame level, for any `HASH32` and any parameters: after an INSERT that completes and any commands that
do not halt the engine, a QUERY of the same key answers TRUE. -/
def Obligations.NoFalseNegativesForAnyHash : Prop :=
  ∀ (cfg : Config) (e e' : Engine cfg) (key : List Byte) (cs : List Command) (rs : List Byte),
    frames e (⟨0x01, key, .whole⟩ :: cs) = some (e', rs) → e'.mode = .idle →
    frame e' ⟨0x02, key, .whole⟩ = some (e', some 0x11)

/-- 42 R126: with every storage word zero, as in a fresh instance, a QUERY frame of any key answers FALSE and leaves the
storage zero. -/
def Obligations.EmptyFilterAnswersFalse : Prop :=
  ∀ (s : State) (key : List Byte) (rest : List Token), Ready s →
    (∀ w : Fin Config.bfe.wordCount, s.engine.bits[w] = 0) → s.inq = frameTokens ⟨0x02, key, .whole⟩ ++ rest →
    ∃ t : State, Sys2Proof.core.run (key.length + 2) s = .next t ∧ t.outq = s.outq ++ [0x10] ∧
      t.engine.bits = s.engine.bits ∧ t.engine.mode = .idle ∧ t.inq = rest

/-- 70 R167 and the corner cases of 41 R110 and 42 R120: on a saturated filter INSERT answers OK and changes nothing,
and QUERY answers TRUE, in every configuration. (That the frame-level function returns the very same engine, its dead
working registers included, is the model's choice, log 23.) -/
def Obligations.SaturatedFilterStillObeysTheRules : Prop :=
  ∀ (cfg : Config) (e : Engine cfg) (key : List Byte), e.mode = .idle →
    (∀ w : Fin cfg.wordCount, e.bits[w] = BitVec.allOnes cfg.wordBits) →
    frame e ⟨0x01, key, .whole⟩ = some (e, some 0x00) ∧ frame e ⟨0x02, key, .whole⟩ = some (e, some 0x11)

/-- 41 R112: after any commands that do not halt the engine, each storage word is its old value ORed with the masks of
exactly the keys whose INSERT completed: whatever their order, and whatever QUERY, failed or illegal commands came in
between. -/
def Obligations.BitsAreTheOrOfTheInsertedKeys : Prop :=
  ∀ (cfg : Config) (e e' : Engine cfg) (cs : List Command) (rs : List Byte), frames e cs = some (e', rs) →
    e'.seed = e.seed ∧
    (∀ w : Fin cfg.wordCount, e'.bits[w] = e.bits[w] ||| insertedMask cfg e.seed w cs) ∧
    (∀ cs' : List Command, cs'.Perm cs → ∀ w : Fin cfg.wordCount,
      insertedMask cfg e.seed w cs' = insertedMask cfg e.seed w cs)

/-- 42 R122: a QUERY closed by END can be removed from any command sequence without changing the engine or the responses
of the other commands. -/
def Obligations.QueriesCanBeRemoved : Prop :=
  ∀ (cfg : Config) (e e' : Engine cfg) (before after : List Command) (key : List Byte) (rs : List Byte),
    frames e (before ++ ⟨0x02, key, .whole⟩ :: after) = some (e', rs) →
    ∃ (ra rb : List Byte) (r : Byte), rs = ra ++ r :: rb ∧ ra.length = before.length ∧
      frames e (before ++ after) = some (e', ra ++ rb)

/-- 60 R143: two instances with the same seeds and empty arrays: the OR of their arrays is the array of one instance
that received both command streams, in any interleaving. -/
def Obligations.SharedSeedsMakeArraysMergeable : Prop :=
  ∀ (cfg : Config) (a b c a' b' c' : Engine cfg) (as bs cs : List Command) (ra rb rc : List Byte),
    a.seed = b.seed → a.seed = c.seed → a.bits = b.bits → a.bits = c.bits →
    (∀ w : Fin cfg.wordCount, a.bits[w] = 0) → cs.Perm (as ++ bs) →
    frames a as = some (a', ra) → frames b bs = some (b', rb) → frames c cs = some (c', rc) →
    ∀ w : Fin cfg.wordCount, c'.bits[w] = a'.bits[w] ||| b'.bits[w]

/-- 42 R124: false positives are possible: in the spec's worked example a key that was never inserted answers TRUE. -/
def Obligations.FalsePositivesArePossible : Prop :=
  ∃ e' : Engine Config.bfe,
    frames (construct Config.bfe (packSeeds #v[0x00000000, 0x00000001, 0x9747B28C]))
      [⟨0x01, [0x6B, 0x65, 0x79], .whole⟩, ⟨0x01, [0x61], .whole⟩, ⟨0x01, [0x62], .whole⟩] =
      some (e', [0x00, 0x00, 0x00]) ∧
    e'.bits = #v[0x010491D8] ∧ frame e' ⟨0x02, [0x71], .whole⟩ = some (e', some 0x11)

/-- 70 R165, bounded: a running engine that is not reset consumes every token offered, one a step, unless it halts. The
model's choice: R165 gives this only if the host takes its responses, and here no such premise is needed because the OUT
queue is unbounded (log 2, DESIGN CHOICE); an engine with a bounded queue holds while it is full (10 R29, 30 R60). -/
def Obligations.EveryOfferedTokenIsConsumed : Prop :=
  ∀ s : State, s.engine.mode ≠ .halted → s.rst = false →
    ∃ (n : Nat) (t : State), n ≤ s.inq.length ∧ Sys2Proof.core.run n s = .next t ∧
      ((t.inq = [] ∧ n = s.inq.length ∧ t.engine.mode ≠ .halted) ∨ t.engine.mode = .halted)

/-- 40 R100: with a host that never sends ERR and never breaks a frame hashing is total: its commands all complete, each
with one response, and the engine is never HALTED. -/
def Obligations.UnfailingHostNeverHaltsTheEngine : Prop :=
  ∀ (s : State) (cs : List Command), Ready s → NeverFails cs → s.inq = commandTokens cs →
    ∃ t : State, Sys2Proof.core.run (commandTokens cs).length s = .next t ∧ Ready t ∧ t.inq = [] ∧
      t.outq.length = s.outq.length + cs.length ∧ ∀ r ∈ t.outq.drop s.outq.length, r ≠ 0x80
end

