-- ==== Sys2Proof/Laws/State.lean ====
section
/-! SUPPORT. One lemma per field per update of the engine and of the state, so that no proof unfolds a record update. -/

namespace Sys2Proof.Machine

variable {cfg : Config}

/-! ### Updates of the engine -/

@[simp] theorem setMode_seed (e : Engine cfg) (m : Mode) : (e.setMode m).seed = e.seed := rfl
@[simp] theorem setMode_bits (e : Engine cfg) (m : Mode) : (e.setMode m).bits = e.bits := rfl
@[simp] theorem setMode_mode (e : Engine cfg) (m : Mode) : (e.setMode m).mode = m := rfl
@[simp] theorem setMode_op (e : Engine cfg) (m : Mode) : (e.setMode m).op = e.op := rfl
@[simp] theorem setMode_h (e : Engine cfg) (m : Mode) : (e.setMode m).h = e.h := rfl
@[simp] theorem setMode_tail (e : Engine cfg) (m : Mode) : (e.setMode m).tail = e.tail := rfl
@[simp] theorem setMode_len (e : Engine cfg) (m : Mode) : (e.setMode m).len = e.len := rfl

@[simp] theorem openFrame_seed (op : Byte) (e : Engine cfg) : (openFrame op e).seed = e.seed := rfl
@[simp] theorem openFrame_bits (op : Byte) (e : Engine cfg) : (openFrame op e).bits = e.bits := rfl
@[simp] theorem openFrame_mode (op : Byte) (e : Engine cfg) : (openFrame op e).mode = .key := rfl
@[simp] theorem openFrame_op (op : Byte) (e : Engine cfg) : (openFrame op e).op = op := rfl
@[simp] theorem openFrame_h (op : Byte) (e : Engine cfg) : (openFrame op e).h = e.seed := rfl
@[simp] theorem openFrame_tail (op : Byte) (e : Engine cfg) : (openFrame op e).tail = [] := rfl
@[simp] theorem openFrame_len (op : Byte) (e : Engine cfg) : (openFrame op e).len = 0 := rfl

theorem absorbByte_eq (d : Byte) (e : Engine cfg) : absorbByte d e =
    if e.tail.length = 3 then
      { e with h := Vector.ofFn fun i => cfg.hashRound e.h[i] (block (e.tail ++ [d])), tail := [], len := e.len + 1 }
    else { e with tail := e.tail ++ [d], len := e.len + 1 } := by
  unfold absorbByte; simp
@[simp] theorem absorbByte_seed (d : Byte) (e : Engine cfg) : (absorbByte d e).seed = e.seed := by
  rw [absorbByte_eq]; split <;> rfl
@[simp] theorem absorbByte_bits (d : Byte) (e : Engine cfg) : (absorbByte d e).bits = e.bits := by
  rw [absorbByte_eq]; split <;> rfl
@[simp] theorem absorbByte_mode (d : Byte) (e : Engine cfg) : (absorbByte d e).mode = e.mode := by
  rw [absorbByte_eq]; split <;> rfl
@[simp] theorem absorbByte_op (d : Byte) (e : Engine cfg) : (absorbByte d e).op = e.op := by
  rw [absorbByte_eq]; split <;> rfl
@[simp] theorem absorbByte_len (d : Byte) (e : Engine cfg) : (absorbByte d e).len = e.len + 1 := by
  rw [absorbByte_eq]; split <;> rfl
theorem absorbByte_tail (d : Byte) (e : Engine cfg) :
    (absorbByte d e).tail = if e.tail.length = 3 then [] else e.tail ++ [d] := by
  rw [absorbByte_eq]; by_cases h : e.tail.length = 3 <;> simp [h]
theorem absorbByte_h (d : Byte) (e : Engine cfg) (i : Fin cfg.k) :
    (absorbByte d e).h[i] = if e.tail.length = 3 then cfg.hashRound e.h[i] (block (e.tail ++ [d])) else e.h[i] := by
  rw [absorbByte_eq]; by_cases h : e.tail.length = 3 <;> simp [h]

@[simp] theorem construct_seed (seedIn : BitVec (32 * cfg.k)) (n : Nat) (h : n < cfg.k) :
    (construct cfg seedIn).seed[n] = seedSlice seedIn n := by simp [construct]
@[simp] theorem construct_bits (seedIn : BitVec (32 * cfg.k)) (n : Nat) (h : n < cfg.wordCount) :
    (construct cfg seedIn).bits[n] = 0#cfg.wordBits := by simp [construct]
@[simp] theorem construct_mode (seedIn : BitVec (32 * cfg.k)) : (construct cfg seedIn).mode = .idle := rfl

/-! ### This hardware's configuration -/

@[simp] theorem bfe_hash32 : Config.bfe.hash32 = murmur3_32 := rfl
@[simp] theorem bfe_hashRound : Config.bfe.hashRound = Machine.round := rfl
@[simp] theorem bfe_hashFinish : Config.bfe.hashFinish = finish := rfl
@[simp] theorem bfe_queryErrPolicy : Config.bfe.queryErrPolicy = .fatal := rfl
theorem bfe_blockHash : Config.bfe.BlockHash := fun _ _ => rfl

/-! ### Updates of the state -/

/-- The state after a token step, all fields at once. -/
theorem apply_eq (s : State) (r : TokenResult Config.bfe) : s.apply r =
    { s with engine := r.engine, inq := if r.consumed then s.inq.tail else s.inq,
             outq := s.outq ++ r.response.toList } := rfl

@[simp] theorem withEngine_engine (s : State) (e : Engine Config.bfe) : (s.withEngine e).engine = e := rfl
@[simp] theorem withEngine_inq (s : State) (e : Engine Config.bfe) : (s.withEngine e).inq = s.inq := rfl
@[simp] theorem withEngine_outq (s : State) (e : Engine Config.bfe) : (s.withEngine e).outq = s.outq := rfl
@[simp] theorem withEngine_rst (s : State) (e : Engine Config.bfe) : (s.withEngine e).rst = s.rst := rfl
@[simp] theorem withEngine_seedIn (s : State) (e : Engine Config.bfe) : (s.withEngine e).seedIn = s.seedIn := rfl

@[simp] theorem emit_engine (s : State) (r : Option Byte) : (s.emit r).engine = s.engine := rfl
@[simp] theorem emit_inq (s : State) (r : Option Byte) : (s.emit r).inq = s.inq := rfl
@[simp] theorem emit_outq (s : State) (r : Option Byte) : (s.emit r).outq = s.outq ++ r.toList := rfl
@[simp] theorem emit_rst (s : State) (r : Option Byte) : (s.emit r).rst = s.rst := rfl
@[simp] theorem emit_seedIn (s : State) (r : Option Byte) : (s.emit r).seedIn = s.seedIn := rfl

@[simp] theorem consume_engine (s : State) (b : Bool) : (s.consume b).engine = s.engine := rfl
@[simp] theorem consume_inq (s : State) (b : Bool) : (s.consume b).inq = if b then s.inq.tail else s.inq := rfl
@[simp] theorem consume_outq (s : State) (b : Bool) : (s.consume b).outq = s.outq := rfl
@[simp] theorem consume_rst (s : State) (b : Bool) : (s.consume b).rst = s.rst := rfl
@[simp] theorem consume_seedIn (s : State) (b : Bool) : (s.consume b).seedIn = s.seedIn := rfl

@[simp] theorem apply_engine (s : State) (r : TokenResult Config.bfe) : (s.apply r).engine = r.engine := rfl
@[simp] theorem apply_inq (s : State) (r : TokenResult Config.bfe) :
    (s.apply r).inq = if r.consumed then s.inq.tail else s.inq := rfl
@[simp] theorem apply_outq (s : State) (r : TokenResult Config.bfe) :
    (s.apply r).outq = s.outq ++ r.response.toList := rfl
@[simp] theorem apply_rst (s : State) (r : TokenResult Config.bfe) : (s.apply r).rst = s.rst := rfl
@[simp] theorem apply_seedIn (s : State) (r : TokenResult Config.bfe) : (s.apply r).seedIn = s.seedIn := rfl

@[simp] theorem resetStep_engine (s : State) : (resetStep s).engine = construct Config.bfe s.seedIn := rfl
@[simp] theorem resetStep_inq (s : State) : (resetStep s).inq = s.inq := rfl
@[simp] theorem resetStep_outq (s : State) : (resetStep s).outq = [] := rfl
@[simp] theorem resetStep_rst (s : State) : (resetStep s).rst = false := rfl
@[simp] theorem resetStep_seedIn (s : State) : (resetStep s).seedIn = s.seedIn := rfl

@[simp] theorem hostSend_engine (ts : List Token) (s : State) : (hostSend ts s).engine = s.engine := rfl
@[simp] theorem hostSend_inq (ts : List Token) (s : State) : (hostSend ts s).inq = s.inq ++ ts := rfl
@[simp] theorem hostSend_outq (ts : List Token) (s : State) : (hostSend ts s).outq = s.outq := rfl
@[simp] theorem hostSend_rst (ts : List Token) (s : State) : (hostSend ts s).rst = s.rst := rfl
@[simp] theorem hostSend_seedIn (ts : List Token) (s : State) : (hostSend ts s).seedIn = s.seedIn := rfl

@[simp] theorem hostReset_engine (v : BitVec (32 * Config.bfe.k)) (s : State) : (hostReset v s).engine = s.engine := rfl
@[simp] theorem hostReset_inq (v : BitVec (32 * Config.bfe.k)) (s : State) : (hostReset v s).inq = s.inq := rfl
@[simp] theorem hostReset_outq (v : BitVec (32 * Config.bfe.k)) (s : State) : (hostReset v s).outq = s.outq := rfl
@[simp] theorem hostReset_rst (v : BitVec (32 * Config.bfe.k)) (s : State) : (hostReset v s).rst = true := rfl
@[simp] theorem hostReset_seedIn (v : BitVec (32 * Config.bfe.k)) (s : State) : (hostReset v s).seedIn = v := rfl

@[simp] theorem withFetchWord_engine (s : State) (n w : Nat) : (s.withFetchWord n w).engine = s.engine := rfl
@[simp] theorem withFetchWord_inq (s : State) (n w : Nat) :
    (s.withFetchWord n w).inq = BitVec.ofNat 10 w :: s.inq := rfl
@[simp] theorem withFetchWord_outq (s : State) (n w : Nat) : (s.withFetchWord n w).outq = s.outq := rfl
@[simp] theorem withFetchWord_rst (s : State) (n w : Nat) : (s.withFetchWord n w).rst = false := rfl
@[simp] theorem withFetchWord_seedIn (s : State) (n w : Nat) : (s.withFetchWord n w).seedIn = s.seedIn := rfl

/-! ### Two states are equal when their parts are -/

theorem State.ext_fields {s t : State} (he : s.engine = t.engine) (hi : s.inq = t.inq) (ho : s.outq = t.outq)
    (hr : s.rst = t.rst) (hs : s.seedIn = t.seedIn) : s = t := by
  cases s; cases t; simp_all

end Sys2Proof.Machine
end

