-- ==== Sys2Proof/Laws/Ops.lean ====
section
/-! SUPPORT. What each shared operation can do, said once: storage and mask bit by bit, the endings of a command, the
token steps, and the step. -/

namespace Sys2Proof.Machine

variable {cfg : Config}

/-! ### Storage -/

theorem bitMask_getLsbD {w : Nat} (b : Fin w) (n : Nat) : (bitMask b).getLsbD n = decide (n = b.val) := by
  have := b.isLt
  unfold bitMask
  rw [BitVec.getLsbD_shiftLeft, BitVec.getLsbD_one]
  by_cases h : n = b.val <;> simp [h] <;> omega

@[simp] theorem memRead_memWrite (bits : Storage cfg) (w v : Fin cfg.wordCount) (x : BitVec cfg.wordBits) :
    memRead (memWrite bits w x) v = if w = v then x else memRead bits v := by
  unfold memRead memWrite
  by_cases h : w = v
  · subst h; simp
  · have : w.val ≠ v.val := fun h' => h (Fin.ext h')
    simp [h, this]

theorem setBit_getElem (bits : Storage cfg) (j : Fin cfg.capacity) (w : Fin cfg.wordCount) :
    (setBit bits j)[w] = if wordOf j = w then bits[w] ||| bitMask (posOf j) else bits[w] := by
  refine (memRead_memWrite bits (wordOf j) w (memRead bits (wordOf j) ||| bitMask (posOf j))).trans ?_
  by_cases h : wordOf j = w
  · subst h; simp [memRead]
  · simp [h, memRead]

/-- A word after any read-modify-writes: the old bits and those of the indices that fall in it (20 R50). -/
theorem foldl_setBit_getLsbD (js : List (Fin cfg.capacity)) (bits : Storage cfg) (w : Fin cfg.wordCount)
    (n : Nat) : ((js.foldl setBit bits)[w]).getLsbD n =
      ((bits[w]).getLsbD n || js.any fun j => decide (wordOf j = w) && decide (n = (posOf j).val)) := by
  induction js generalizing bits with
  | nil => simp
  | cons j js ih =>
    rw [List.foldl_cons, ih, setBit_getElem]
    by_cases h : wordOf j = w <;> simp [h, bitMask_getLsbD, Bool.or_assoc]

theorem foldl_mask_getLsbD (js : List (Fin cfg.capacity)) (m : BitVec cfg.wordBits) (w : Fin cfg.wordCount) (n : Nat) :
    (js.foldl (fun m j => if wordOf j = w then m ||| bitMask (posOf j) else m) m).getLsbD n =
      (m.getLsbD n || js.any fun j => decide (wordOf j = w) && decide (n = (posOf j).val)) := by
  induction js generalizing m with
  | nil => simp
  | cons j js ih =>
    rw [List.foldl_cons, ih]
    by_cases h : wordOf j = w <;> simp [h, bitMask_getLsbD, Bool.or_assoc]

theorem mask_getLsbD (idx : Indices cfg) (w : Fin cfg.wordCount) (n : Nat) :
    (mask idx w).getLsbD n = idx.toList.any fun j => decide (wordOf j = w) && decide (n = (posOf j).val) := by
  unfold mask; rw [foldl_mask_getLsbD]; simp

theorem testBit_eq (bits : Storage cfg) (j : Fin cfg.capacity) :
    testBit bits j = (bits[wordOf j]).getLsbD (posOf j).val := by
  have hw : 0 < cfg.wordBits := cfg.wordBits_pos
  unfold testBit memRead
  rw [Bool.eq_iff_iff, beq_iff_eq]
  constructor
  · intro h
    have := congrArg (fun x => x.getLsbD 0) h
    simpa [BitVec.getLsbD_ushiftRight, hw] using this
  · intro h
    ext n hn
    rw [BitVec.getElem_and, BitVec.getElem_one]
    by_cases h0 : n = 0
    · subst h0; simpa [BitVec.getElem_ushiftRight] using h
    · simp [h0]

theorem queryLoop_eq_all (bits : Storage cfg) (js : List (Fin cfg.capacity)) :
    queryLoop bits js = js.all (testBit bits) := by
  induction js with
  | nil => rfl
  | cons j js ih => unfold queryLoop; by_cases h : testBit bits j <;> simp [h, ih]

/-- Two storages with the same bits are the same storage: equal memories are equal data (log 12). -/
theorem storage_ext (a b : Storage cfg)
    (h : ∀ (w : Fin cfg.wordCount) (n : Nat), n < cfg.wordBits → (a[w]).getLsbD n = (b[w]).getLsbD n) : a = b := by
  apply Vector.ext
  intro i hi
  exact BitVec.eq_of_getLsbD_eq fun n hn => h ⟨i, hi⟩ n hn

/-! ### The endings of a command -/

@[simp] theorem complete_engine (e : Engine cfg) (r : Byte) : (complete e r).engine = e.setMode .idle := rfl
@[simp] theorem complete_response (e : Engine cfg) (r : Byte) : (complete e r).response = some r := rfl
@[simp] theorem complete_consumed (e : Engine cfg) (r : Byte) : (complete e r).consumed = true := rfl

/-- The exceptions, whole (60 R131 to R133). -/
theorem raise_eq (x : Exn) (e : Engine cfg) : raise x e =
    match x with
    | .hashError => ⟨e.setMode .idle, some 0x80, true⟩
    | .illegalCommand _ => ⟨e.setMode .idle, some 0x81, true⟩
    | .queryFatal => ⟨e.setMode .halted, none, true⟩ := by
  cases x <;> rfl

theorem isReserved_iff (op : Byte) : isReserved op = true ↔ op ≠ 0x01 ∧ op ≠ 0x02 := by
  simp [isReserved, opInsert, opQuery]

/-- What closing a frame with ERR can do (30 R74). -/
theorem closeFailed_cases (e : Engine cfg) :
    (e.op ≠ 0x01 ∧ e.op ≠ 0x02 ∧ closeFailed e = ⟨e.setMode .idle, some 0x81, true⟩) ∨
    (e.op = 0x01 ∧ closeFailed e = ⟨e.setMode .idle, some 0x80, true⟩) ∨
    (e.op = 0x02 ∧ cfg.queryErrPolicy = .propagate ∧ closeFailed e = ⟨e.setMode .idle, some 0x80, true⟩) ∨
    (e.op = 0x02 ∧ cfg.queryErrPolicy = .fatal ∧ closeFailed e = ⟨e.setMode .halted, none, true⟩) := by
  unfold closeFailed
  by_cases hr : isReserved e.op = true
  · exact .inl ⟨((isReserved_iff _).1 hr).1, ((isReserved_iff _).1 hr).2, by simp [hr, raise_eq]⟩
  · by_cases hi : e.op = 0x01
    · exact .inr (.inl ⟨hi, by simp [hi, isReserved, opInsert, raise_eq]⟩)
    · have hq : e.op = 0x02 := by
        by_contra hq; exact hr ((isReserved_iff _).2 ⟨hi, hq⟩)
      have ho : e.op ≠ opInsert := hi
      cases hp : cfg.queryErrPolicy
      · exact .inr (.inr (.inr ⟨hq, rfl, by simp [hr, ho, raise_eq]⟩))
      · exact .inr (.inr (.inl ⟨hq, rfl, by simp [hr, ho, raise_eq]⟩))

/-- What closing a frame with END can do (30 R73). -/
theorem closeWhole_cases (e : Engine cfg) :
    (e.op ≠ 0x01 ∧ e.op ≠ 0x02 ∧ closeWhole e = ⟨e.setMode .idle, some 0x81, true⟩) ∨
    (e.op = 0x01 ∧ closeWhole e =
      ⟨{ e with bits := insertBits e.bits (pipelineIndices e), mode := .idle }, some 0x00, true⟩) ∨
    (e.op = 0x02 ∧ closeWhole e =
      ⟨e.setMode .idle, some (queryResponse (queryBits e.bits (pipelineIndices e))), true⟩) := by
  unfold closeWhole
  by_cases hr : isReserved e.op = true
  · exact .inl ⟨((isReserved_iff _).1 hr).1, ((isReserved_iff _).1 hr).2, by simp [hr, raise_eq]⟩
  · by_cases hi : e.op = 0x01
    · exact .inr (.inl ⟨hi, by
        simp [hi, isReserved, opInsert, insertCommand, complete, Engine.setMode, respOk]⟩)
    · have hq : e.op = 0x02 := by
        by_contra hq; exact hr ((isReserved_iff _).2 ⟨hi, hq⟩)
      have ho : e.op ≠ opInsert := hi
      exact .inr (.inr ⟨hq, by simp [hr, ho, queryCommand, complete]⟩)

/-! ### The token steps -/

/-- The meaning of every token is one token step of the engine, accepted by the channels. -/
theorem exec_eq (i : Instr) (s : State) : exec i s = accept (onToken i) s := by
  cases i <;> rfl

theorem accept_of_running (f : Engine Config.bfe → TokenResult Config.bfe) (s : State)
    (h : s.engine.mode ≠ .halted) : accept f s = .next (s.apply (f s.engine)) := by
  unfold accept; cases hm : s.engine.mode <;> simp_all

theorem accept_of_halted (f : Engine Config.bfe → TokenResult Config.bfe) (s : State)
    (h : s.engine.mode = .halted) : accept f s = .fault .halted := by
  unfold accept; simp [h]

/-- Everything a token meaning that answers a next state did. -/
theorem exec_next {i : Instr} {s t : State} (h : exec i s = .next t) :
    s.engine.mode ≠ .halted ∧ t = s.apply (onToken i s.engine) := by
  rw [exec_eq] at h
  by_cases hm : s.engine.mode = .halted
  · rw [accept_of_halted _ _ hm] at h; cases h
  · rw [accept_of_running _ _ hm] at h; cases h; exact ⟨hm, rfl⟩

/-- A CMD token by its opcode byte. -/
theorem onToken_cmd {i : Instr} {op : Byte} (h : i.opcode? = some op) (e : Engine cfg) : onToken i e = onCmd op e := by
  cases i <;> simp [Instr.opcode?] at h <;> subst h <;> rfl

/-! ### The step -/

theorem step_of_reset {s : State} (h : s.rst = true) : step s = .next (resetStep s) := by
  unfold step; simp [h]

theorem step_of_token {s : State} {t : Token} {ts : List Token} (hr : s.rst = false) (hi : s.inq = t :: ts) :
    step s = exec (decode t) s := by
  unfold step; simp [hr, fetch, hi]

theorem step_of_empty {s : State} (hr : s.rst = false) (hi : s.inq = []) : step s = waitForToken s := by
  unfold step; simp [hr, fetch, hi]

/-- Everything a step that answers a next state can have done: the reset step, waiting, or one token step. -/
theorem step_next {s t : State} (h : step s = .next t) :
    (s.rst = true ∧ t = resetStep s) ∨
    (s.rst = false ∧ s.inq = [] ∧ s.engine.mode ≠ .halted ∧ t = s) ∨
    (s.rst = false ∧ ∃ tok ts, s.inq = tok :: ts ∧ s.engine.mode ≠ .halted ∧
      t = s.apply (onToken (decode tok) s.engine)) := by
  cases hr : s.rst
  · cases hi : s.inq with
    | nil =>
      rw [step_of_empty hr hi] at h
      unfold waitForToken at h
      cases hm : s.engine.mode <;> simp [hm] at h <;> exact .inr (.inl ⟨rfl, rfl, by simp, h.symm⟩)
    | cons tok ts =>
      rw [step_of_token hr hi] at h
      obtain ⟨hm, ht⟩ := exec_next h
      exact .inr (.inr ⟨rfl, tok, ts, rfl, hm, ht⟩)
  · rw [step_of_reset hr] at h; cases h; exact .inl ⟨rfl, rfl⟩

/-- A step stops in one way only: in HALTED, without reset, with the one fault. It never refuses. -/
theorem step_stops {s : State} (h : ∀ t, step s ≠ .next t) :
    s.rst = false ∧ s.engine.mode = .halted ∧ step s = .fault .halted := by
  cases hr : s.rst
  · cases hm : s.engine.mode
    case halted =>
      refine ⟨rfl, rfl, ?_⟩
      cases hi : s.inq with
      | nil => rw [step_of_empty hr hi]; simp [waitForToken, hm]
      | cons t ts => rw [step_of_token hr hi, exec_eq, accept_of_halted _ _ hm]
    all_goals
      exfalso
      cases hi : s.inq with
      | nil => exact h s (by rw [step_of_empty hr hi]; simp [waitForToken, hm])
      | cons t ts => exact h _ (by rw [step_of_token hr hi, exec_eq, accept_of_running _ _ (by simp [hm])])
  · exact absurd (step_of_reset hr) (h _)

/-- The word of a table row that `withFetchWord` places is the token the next step runs. -/
theorem step_withFetchWord (s : State) (nbits w : Nat) (i : Instr) (h : decodeTableWord nbits w = some i) :
    step (s.withFetchWord nbits w) = exec i (s.withFetchWord nbits w) := by
  unfold decodeTableWord decodeWord at h
  by_cases hw : w < 2 ^ 10
  · rw [if_pos hw] at h
    cases h
    exact step_of_token rfl rfl
  · rw [if_neg hw] at h; cases h

end Sys2Proof.Machine
end

