-- ==== Sys2Proof/Laws/PerInstr.lean ====
section
/-! SUPPORT. Families of statements about every instruction as syntax, one lemma per constructor. -/

namespace Sys2Proof.Laws

/-- A CMD token is decoded by its whole opcode byte (30 R64, R65). -/
theorem decode_cmdToken (op : Byte) :
    decode (cmdToken op) = if op = 0x01 then .insert else if op = 0x02 then .query else .reservedCmd op := by
  revert op; decide +kernel

theorem decode_byteToken (d : Byte) : decode (mkToken 0b01#2 d) = .byte d := by
  revert d; decide +kernel

theorem decode_endToken (d : Byte) : decode (mkToken 0b10#2 d) = .endOfKey d := by
  revert d; decide +kernel

theorem decode_errToken (d : Byte) : decode (mkToken 0b11#2 d) = .errOfKey d := by
  revert d; decide +kernel

namespace EncodedTokenDecodes

/-- A well-formed instruction's token decodes to it. -/
def Statement (i : Instr) : Prop := i.wellFormed = true → decode (encode i) = i

theorem insert : Statement .insert := fun _ => decode_cmdToken _

theorem query : Statement .query := fun _ => decode_cmdToken _

theorem reservedCmd (op : Byte) : Statement (.reservedCmd op) := by
  intro h
  have h' : op ≠ 0x01 ∧ op ≠ 0x02 := by
    simpa [Instr.wellFormed, Machine.isReserved, Machine.opInsert, Machine.opQuery] using h
  exact (decode_cmdToken op).trans (by rw [if_neg h'.1, if_neg h'.2])

theorem byte (data : Byte) : Statement (.byte data) := fun _ => decode_byteToken data

theorem endOfKey (data : Byte) : Statement (.endOfKey data) := fun _ => decode_endToken data

theorem errOfKey (data : Byte) : Statement (.errOfKey data) := fun _ => decode_errToken data

end EncodedTokenDecodes

end Sys2Proof.Laws
end

