-- ==== Sys2Proof/Tests/Slice0.lean ====
section
/-! SUPPORT. Tests of the model. Expected values come from the tables of spec/30_encoding.md and from the vectors of
spec/95_test_vectors.md, named at each test. After them one witness for each statement that has hypotheses: a concrete
state and operands that meet them together. -/

namespace Sys2Proof.Tests

open Sys2Proof Sys2Proof.Machine

/-! ### Small machines -/

/-- The seed set `SA` of 95. -/
def seedsA : Vector Word 3 := #v[0x00000000, 0x00000001, 0x9747B28C]

/-- An engine of this hardware with the seeds `SA` and one storage word. -/
def eng (m : Mode) (op : Byte) (h : Vector Word 3) (tail : List Byte) (len : Word) (bits : BitVec 32) :
    Engine Config.bfe :=
  { seed := seedsA, bits := #v[bits], mode := m, op := op, h := h, tail := tail, len := len }

/-- It, between frames. -/
def idleEng (bits : BitVec 32) : Engine Config.bfe := eng .idle 0 #v[0, 0, 0] [] 0 bits

/-- It, with a frame open that has received the key `"key"`. -/
def keyEng (op : Byte) (bits : BitVec 32) : Engine Config.bfe :=
  eng .key op seedsA [0x6B, 0x65, 0x79] 3 bits

/-- A state with a given engine and IN channel, one response waiting, `rst` released. -/
def st (e : Engine Config.bfe) (inq : List Token) : State :=
  { engine := e, inq := inq, outq := [0x00], rst := false, seedIn := packSeeds seedsA }

/-- The machine after one step, if there is a next state. -/
def after (s : State) : Option State :=
  match step s with
  | .next t => some t
  | .fault _ => none
  | .refused _ => none

/-- `"key"`. -/
def keyBytes : List Byte := [0x6B, 0x65, 0x79]

/-- Another legal configuration: 3 words of 8 bits, PROPAGATE (95 2.10, P5). -/
def cfg24 : Config :=
  { Config.bfe with
    wordBits := 8, wordCount := 3, queryErrPolicy := .propagate
    wordBits_pos := by decide, wordCount_pos := by decide, capacity_le := by decide }

/-- An engine of it, seeds `SA`. -/
def eng24 (m : Mode) (op : Byte) (bits : Vector (BitVec 8) 3) : Engine cfg24 :=
  { seed := seedsA, bits := bits, mode := m, op := op, h := seedsA, tail := [], len := 0 }

/-! ### WellFormed and Decode -/

/-- 30 R65: 0x01 and 0x02 are not reserved opcodes. -/
theorem test_wellFormed_refuses_reservedCmd_01 : (Instr.reservedCmd 0x01).wellFormed = false := by decide
theorem test_wellFormed_refuses_reservedCmd_02 : (Instr.reservedCmd 0x02).wellFormed = false := by decide
theorem test_wellFormed_accepts_reservedCmd_00_and_FF :
    (Instr.reservedCmd 0x00).wellFormed = true ∧ (Instr.reservedCmd 0xFF).wellFormed = true := by decide

/-- 30 R64: KIND 00, DATA 0000_0001. -/
theorem test_decode_insert : decodeTableWord 16 0b0000000000000001 = some .insert := by decide
/-- 30 R64: KIND 00, DATA 0000_0010. -/
theorem test_decode_query : decodeTableWord 16 0b0000000000000010 = some .query := by decide
/-- 30 R65: KIND 00, DATA 1000_0001: one bit from INSERT. -/
theorem test_decode_reservedCmd : decodeTableWord 16 0b0000000010000001 = some (.reservedCmd 0x81) := by decide
/-- 30 R66: KIND 01; 95 V-TOK token 168. -/
theorem test_decode_byte : decodeTableWord 16 0b0000000101101000 = some (.byte 0x68) := by decide
/-- 30 R67: KIND 10; 95 V-E13 token 2FF. -/
theorem test_decode_end : decodeTableWord 16 0b0000001011111111 = some (.endOfKey 0xFF) := by decide
/-- 30 R68: KIND 11; 95 V-E1 token 300. -/
theorem test_decode_err : decodeTableWord 16 0b0000001100000000 = some (.errOfKey 0x00) := by decide
/-- 30 R61: a token has 10 bits. -/
theorem test_decode_refuses_bit_10 : decodeTableWord 16 0x401 = none ∧
    decodeWord 0x401 = .error .widerThanToken := by decide

/-- 95 V-I6: the tokens of `INSERT "def-not-a-key"`. -/
theorem test_frame_tokens :
    ScriptLine.tokens (.insert (asciiKey ['d', 'e', 'f', '-', 'n', 'o', 't', '-', 'a', '-', 'k', 'e', 'y']) .whole) =
      [0x001, 0x164, 0x165, 0x166, 0x12D, 0x16E, 0x16F, 0x174, 0x12D, 0x161, 0x12D, 0x16B, 0x165, 0x179, 0x200] := by
  decide

/-- 95 V-E3: `RAW 0x03 "" !ERR` is `003 300`. -/
theorem test_raw_tokens : ScriptLine.tokens (.raw 0x03 [] .failed) = [0x003, 0x300] := by decide

/-- 30 R80: `x"C3A9"`; 95 V-T8. -/
theorem test_hexKey : hexKey ['C', '3', 'A', '9'] = some [0xC3, 0xA9] ∧ hexKey ['C'] = none := by decide

/-! ### The hash (95 2.1 to 2.5) -/

/-- 95 V-P4, V-P5: multiplication and addition wrap. -/
theorem test_arithmetic_wraps :
    (0xFFFFFFFF : Word) * murmurC1 = 0x3361D2AF ∧ (0xFFFFFFFF : Word) * 5 + murmurN = 0xE6546B5F := by decide
/-- 95 V-P8, V-P10, V-T6. -/
theorem test_round : scramble 0xFFFFFFFF = 0xBBEEB010 ∧ Machine.round 0xFFFFFFFF 0 = 0xE6546B5F ∧
    Machine.round 0x0E65C3A2 0x2D746F6E = 0xF81CF8C6 := by decide
/-- 95 V-H5, V-H7. -/
theorem test_hash_blocks : murmur3_32 (asciiKey ['t', 'e', 's', 't']) 0x9747B28C = 0x704B81DC ∧
    murmur3_32 (asciiKey ['H', 'e', 'l', 'l', 'o', ',', ' ', 'w', 'o', 'r', 'l', 'd', '!']) 0x9747B28C = 0x24884CBA := by
  decide
/-- 95 V-H17 to V-H22, V-T9: bytes are unsigned, and the three tail lengths. -/
theorem test_hash_tails : murmur3_32 [0xFF, 0xFF, 0xFF, 0xFF] 0 = 0x76293B50 ∧
    murmur3_32 [0x21, 0x43, 0x65, 0x87] 0 = 0xF55B516B ∧ murmur3_32 [0x21, 0x43, 0x65] 0 = 0x7E4A8634 ∧
    murmur3_32 [0x21, 0x43] 0 = 0xA0F7B07A ∧ murmur3_32 [0x21] 0 = 0x72661CF4 ∧
    murmur3_32 [0x80, 0x81, 0x82, 0x83, 0x84] 0 = 0xB648CB76 := by decide
/-- 95 V-H24 to V-H26: zero bytes are not skipped. -/
theorem test_hash_zeros : murmur3_32 [0, 0, 0] 0 = 0x85F0B427 ∧ murmur3_32 [0, 0] 0 = 0x30F4C306 ∧
    murmur3_32 [0] 0 = 0x514E28B7 := by decide
/-- 95 V-R2, V-R3, V-R6: the reduction is unsigned, and not a bit field when `C` is 24. -/
theorem test_reduction : (bitIndex Config.bfe 0xFFFFFFFF).val = 31 ∧ (bitIndex Config.bfe 0x80000000).val = 0 ∧
    (bitIndex cfg24 0xFFFFFFFF).val = 15 ∧ (bitIndex cfg24 0x39CEF1EF).val = 23 := by decide
/-- 95 V-K2, V-K6, and P5 with `C` 24. -/
theorem test_hash_key :
    (hashKey Config.bfe seedsA (asciiKey ['d', 'e', 'f', '-', 'n', 'o', 't', '-', 'a', '-', 'k', 'e', 'y'])).toList =
      [⟨4, by decide⟩, ⟨3, by decide⟩, ⟨14, by decide⟩] ∧
    (hashKey Config.bfe seedsA [0x63, 0x63, 0x67]).toList = [⟨7, by decide⟩, ⟨7, by decide⟩, ⟨7, by decide⟩] ∧
    (hashKey cfg24 seedsA keyBytes).toList = [⟨4, by decide⟩, ⟨12, by decide⟩, ⟨23, by decide⟩] := by
  decide +kernel
/-- 95 2.4: the address split of index 23 with 8-bit words. -/
theorem test_address_split : (wordOf (bitIndex cfg24 23)).val = 2 ∧ (posOf (bitIndex cfg24 23)).val = 7 := by decide
/-- 40 R102: `mask([26, 2, 2], 0) = 0x04000004`. -/
theorem test_mask :
    (mask (cfg := Config.bfe) #v[⟨26, by decide⟩, ⟨2, by decide⟩, ⟨2, by decide⟩] ⟨0, by decide⟩).toNat = 0x04000004 := by
  decide

/-! ### One step of each token (95 V-TOK, V-E1 to V-E14, 2.6, 2.7) -/

/-- 95 V-TOK, token 001. -/
theorem test_insert_opens_frame : after (st (idleEng 0) [0x001, 0x168]) =
    some (st (eng .key 0x01 seedsA [] 0 0) [0x168]) := by decide
/-- 95 V-E4: a CMD token that breaks an illegal frame answers 0x81 (R75, R136). -/
theorem test_insert_breaks_illegal_frame :
    (after (st (keyEng 0xFF 0x00009010) [0x001])).map (fun t => (t.engine.mode, t.engine.op, t.outq, t.inq)) =
      some (.key, 0x01, [0x00, 0x81], []) := by decide
/-- 95 V-E9, the third token: the broken INSERT answers 0x80 and the QUERY frame opens. -/
theorem test_query_breaks_insert_frame :
    (after (st (keyEng 0x01 0x00009010) [0x002])).map (fun t => (t.engine, t.outq, t.inq)) =
      some (eng .key 0x02 seedsA [] 0 0x00009010, [0x00, 0x80], []) := by decide
/-- 95 V-E10, the third token: the broken QUERY halts and the CMD token stays. -/
theorem test_query_breaks_query_frame :
    (after (st (keyEng 0x02 0x00009010) [0x002, 0x162])).map (fun t => (t.engine.mode, t.outq, t.inq)) =
      some (.halted, [0x00], [0x002, 0x162]) := by decide
/-- 95 V-E2, the first token: the opcode is not checked here. -/
theorem test_reservedCmd_opens_frame : after (st (idleEng 0x00009010) [0x000]) =
    some (st (eng .key 0x00 seedsA [] 0 0x00009010) []) := by decide
/-- 95 V-TOK, the fifth token: the block is complete. -/
theorem test_byte_completes_block :
    after (st (eng .key 0x01 seedsA [0x68, 0x65, 0x6C] 3 0) [0x16C]) =
      some (st (eng .key 0x01 #v[0xEF13EFCD, 0xEF134FCD, 0x02A62E55] [] 4 0) []) := by decide
/-- 95 V-E5: a stray BYTE is discarded. -/
theorem test_byte_stray : after (st (idleEng 0x00009010) [0x161]) = some (st (idleEng 0x00009010) []) := by decide
/-- 95 V-TOK, the last token. -/
theorem test_end_inserts :
    (after (st (eng .key 0x01 #v[0xEF13EFCD, 0xEF134FCD, 0x02A62E55] [0x6F] 5 0) [0x200])).map
        (fun t => (t.engine.bits.toList, t.engine.mode, t.outq, t.inq)) =
      some ([0x00002180], .idle, [0x00, 0x00], []) := by decide +kernel
/-- 95 V-Q1, V-Q4, V-E2: QUERY without and with the bits, and an illegal command; END with non-zero DATA (V-E13). -/
theorem test_end_answers :
    (after (st (keyEng 0x02 0x00009000) [0x200])).map (fun t => (t.engine.bits.toList, t.outq)) =
      some ([0x00009000], [0x00, 0x10]) ∧
    (after (st (keyEng 0x02 0x00009010) [0x2FF])).map (fun t => (t.engine.bits.toList, t.outq)) =
      some ([0x00009010], [0x00, 0x11]) ∧
    (after (st (keyEng 0x00 0x00000000) [0x200])).map (fun t => (t.engine.bits.toList, t.outq)) =
      some ([0x00000000], [0x00, 0x81]) := by decide +kernel
/-- 95 V-E1, V-E3: a failed INSERT sets nothing; an illegal command is illegal also with ERR. -/
theorem test_err_answers :
    (after (st (keyEng 0x01 0x00000000) [0x300])).map (fun t => (t.engine.bits.toList, t.engine.mode, t.outq)) =
      some ([0x00000000], .idle, [0x00, 0x80]) ∧
    (after (st (keyEng 0x03 0x00000000) [0x300])).map (fun t => (t.engine.mode, t.outq)) =
      some (.idle, [0x00, 0x81]) := by decide
/-- 95 V-E6, V-E7: a failed QUERY halts; then no token is consumed. -/
theorem test_err_halts :
    (after (st (keyEng 0x02 0x00009010) [0x300, 0x001])).map (fun t => (halted t.engine, inReady t, t.outq, t.inq)) =
      some (true, false, [0x00], [0x001]) ∧
    after (st (eng .halted 0x02 seedsA [] 0 0) [0x001]) = none := by decide

/-! ### The frame level, another configuration (95 V-E8, V-E11, P5) -/

/-- 95 P5, the first two lines. -/
theorem test_frame_insert_24 : (frame (eng24 .idle 0 #v[0x10, 0x10, 0x80]) ⟨0x01, [0x70], .whole⟩).map
    (fun r => (r.1.bits.toList, r.2)) = some ([0x10, 0x14, 0x84], some 0x00) := by decide +kernel
/-- 95 V-E8: PROPAGATE. -/
theorem test_frame_failed_query_propagates :
    frame (eng24 .idle 0 #v[0x10, 0x10, 0x80]) ⟨0x02, keyBytes, .failed⟩ =
      some (eng24 .idle 0 #v[0x10, 0x10, 0x80], some 0x80) := by decide +kernel
/-- 95 V-E11, the third token: the broken QUERY answers and the INSERT frame opens. -/
theorem test_broken_query_propagates :
    onToken .insert (eng24 .key 0x02 #v[0x10, 0x10, 0x80]) =
      ⟨eng24 .key 0x01 #v[0x10, 0x10, 0x80], some 0x80, true⟩ := by decide

/-! ### Reset and the host (95 2.9) -/

/-- 95 V-RST2: reset in an open frame, a response pending. -/
theorem test_reset_in_open_frame :
    (after (hostReset (packSeeds #v[0xDEADBEEF, 0xCAFEBABE, 0x12345678]) (st (keyEng 0x01 0x00009010) [0x162]))).map
      (fun t => (t.engine.bits.toList, t.engine.mode, t.outq, t.inq)) = some ([0], .idle, [], [0x162]) := by
  decide +kernel
/-- 95 V-RST1: register `i` samples word `i` of the port. -/
theorem test_reset_samples_seeds :
    (construct Config.bfe 0x9747B28C0000000100000000).seed.toList = [0x00000000, 0x00000001, 0x9747B28C] := by
  decide +kernel
/-- 95 V-RST1: `seed_in = 0x9747B28C_00000001_00000000` is `SA`. -/
theorem test_pack_seeds : packSeeds seedsA = 0x9747B28C0000000100000000 := by decide
/-- 95 V-RST3: out of HALTED. -/
theorem test_reset_leaves_halted :
    (after (hostReset (packSeeds seedsA) (st (eng .halted 0x02 seedsA [] 0 0x00009010) []))).map
      (fun t => (halted t.engine, t.engine.bits.toList)) = some (false, [0]) := by decide +kernel
/-- A row's token placed after reset runs as the first one. -/
theorem test_withFetchWord_runs :
    (after (State.reset.withFetchWord 16 0x001)).map (fun t => (t.engine.mode, t.engine.op, t.inq)) =
      some (.key, 0x01, []) := by rfl
/-- The host takes the oldest response. -/
theorem test_host_takes_oldest : (hostTake { st (idleEng 0) [] with outq := [0x00, 0x10] }).map
    (fun p => (p.1, p.2.outq)) = some (0x00, [0x10]) := by decide

/-! ### Witnesses: the hypotheses of each statement can be met together -/

theorem witness_TokenDecodeEncodeRoundTrip : (Instr.reservedCmd 0x03).wellFormed = true := by decide

theorem witness_FrameDecoderAcceptsOnlyFrames :
    decodeFrame [0x001, 0x16B, 0x2FF, 0x300] = some (⟨0x01, [0x6B], .whole⟩, [0x300]) ∧
    decodeFrame [0x003, 0x301] = some (⟨0x03, [], .failed⟩, []) := by decide

theorem witness_StepRunsTheDecodedToken :
    (Instr.reservedCmd 0xFF).wellFormed = true ∧ (st (idleEng 0) [0x0FF]).rst = false ∧
      (st (idleEng 0) [0x0FF]).inq = encode (.reservedCmd 0xFF) :: [] := by decide

theorem witness_TokenStepConsumesExactlyOneToken :
    (∃ t, exec (.byte 0x6B) (st (idleEng 0) [0x16B]) = .next t ∧ t.engine.mode ≠ .halted) ∧
    (∃ t, exec (.errOfKey 0) (st (keyEng 0x02 0) [0x300]) = .next t ∧ t.engine.mode = .halted) ∧
    (∃ t, exec .insert (st (keyEng 0x02 0) [0x001]) = .next t ∧ t.engine.mode = .halted) :=
  ⟨⟨_, rfl, by decide⟩, ⟨_, rfl, rfl⟩, ⟨_, rfl, rfl⟩⟩

theorem witness_EngineWaitsForAToken :
    (st (idleEng 0) []).engine.mode ≠ .halted ∧ (st (idleEng 0) []).rst = false ∧ (st (idleEng 0) []).inq = [] := by
  decide

theorem witness_ResetStepConstructsANewInstance :
    (hostReset 0 (st (eng .halted 0x02 seedsA [] 0 0) [0x001])).rst = true := by decide

theorem witness_EqualSeedPortsGiveEqualInstances :
    ∃ s t s' t' : State, s.rst = true ∧ t.rst = true ∧ s.seedIn = t.seedIn ∧ s.engine ≠ t.engine ∧
      step s = .next s' ∧ step t = .next t' :=
  ⟨hostReset 5 (st (keyEng 0x01 7) []), hostReset 5 (st (idleEng 0) [0x001]), _, _, rfl, rfl, rfl, by decide, rfl, rfl⟩

theorem witness_CmdTokenOpensAFrame :
    Instr.insert.opcode? = some 0x01 ∧ Instr.query.opcode? = some 0x02 ∧
      (Instr.reservedCmd 0x00).opcode? = some 0x00 ∧ (st (idleEng 0) []).engine.mode = .idle := by decide

theorem witness_CmdInOpenFrameIsErrThenCmd :
    (∃ u : State, exec (.errOfKey 0) { st (keyEng 0x01 0) [] with inq := [0x300] } = .next u ∧
      u.engine.mode ≠ .halted ∧ Instr.query.opcode? = some 0x02 ∧ (st (keyEng 0x01 0) []).engine.mode = .key) ∧
    (∃ u : State, exec (.errOfKey 0) { st (keyEng 0x02 0) [] with inq := [0x300] } = .next u ∧
      u.engine.mode = .halted) :=
  ⟨⟨_, rfl, by decide, rfl, rfl⟩, ⟨_, rfl, rfl⟩⟩

theorem witness_CmdTokenBreaksAnOpenFrame :
    Instr.query.opcode? = some 0x02 ∧ (st (keyEng 0x01 0) []).engine.mode = .key ∧
      (st (keyEng 0x01 0) []).engine.op = 0x01 ∧ (st (keyEng 0x02 0) []).engine.op = 0x02 ∧
      (st (keyEng 0x03 0) []).engine.op ≠ 0x01 ∧ (st (keyEng 0x03 0) []).engine.op ≠ 0x02 ∧
      (st (keyEng 0x00 0) []).engine.op ≠ 0x01 ∧ (st (keyEng 0x00 0) []).engine.op ≠ 0x02 := by decide

/-- Both branches: a tail of 3 and one of fewer bytes. -/
theorem witness_ByteTokenIsAbsorbed :
    (st (keyEng 0x01 0) []).engine.mode = .key ∧ ((st (keyEng 0x01 0) []).engine.tail ++ [(0x21 : Byte)]).length = 4 ∧
      (st (eng .key 0x01 seedsA [] 0 0) []).engine.mode = .key := by decide

theorem witness_StrayTokensAreDiscarded : (st (idleEng 0) [0x161]).engine.mode = .idle := by decide

theorem witness_EndExecutesInsert :
    (st (keyEng 0x01 0) []).engine.mode = .key ∧ (st (keyEng 0x01 0) []).engine.op = 0x01 := by decide

/-- Both answers: with the bits of `"key"`, and without one of them. -/
theorem witness_EndAnswersQuery :
    (keyEng 0x02 0x00009010).mode = .key ∧ (keyEng 0x02 0x00009010).op = 0x02 ∧
    (∀ i : Fin Config.bfe.k,
      ((keyEng 0x02 0x00009010).bits[wordOf (pipelineIndices (keyEng 0x02 0x00009010))[i]]).getLsbD
        (posOf (pipelineIndices (keyEng 0x02 0x00009010))[i]).val = true) ∧
    (∃ i : Fin Config.bfe.k,
      ((keyEng 0x02 0x00009000).bits[wordOf (pipelineIndices (keyEng 0x02 0x00009000))[i]]).getLsbD
        (posOf (pipelineIndices (keyEng 0x02 0x00009000))[i]).val = false) := by decide +kernel

theorem holds_keyEng : Holds (keyEng 0x01 0) keyBytes :=
  ⟨by decide +kernel, by decide, by decide⟩

theorem witness_IndicesAtEndAreHashKey : Holds (keyEng 0x01 0) keyBytes := holds_keyEng

theorem witness_ReservedOpcodeAnswersIllegal :
    (keyEng 0x00 0).mode = .key ∧ (keyEng 0x00 0).op ≠ 0x01 ∧ (keyEng 0x00 0).op ≠ 0x02 ∧
      Instr.insert.opcode? = some 0x01 := by decide

theorem witness_FailedInsertAnswersHashError : (keyEng 0x01 0).mode = .key ∧ (keyEng 0x01 0).op = 0x01 := by decide

theorem witness_FailedQueryHaltsTheEngine :
    (keyEng 0x02 0).mode = .key ∧ (keyEng 0x02 0).op = 0x02 ∧ Instr.insert.opcode? = some 0x01 := by decide

theorem witness_PropagatedQueryFailureAnswersHashError :
    cfg24.queryErrPolicy = .propagate ∧ (eng24 .key 0x02 #v[0, 0, 0]).mode = .key ∧
      (eng24 .key 0x02 #v[0, 0, 0]).op = 0x02 ∧ Instr.query.opcode? = some 0x02 := by decide

theorem witness_HaltedEngineConsumesNothing :
    (st (eng .halted 0x02 seedsA [] 0 0) [0x001]).engine.mode = .halted ∧
      (st (eng .halted 0x02 seedsA [] 0 0) [0x001]).rst = false ∧
      (hostReset 0 (st (eng .halted 0x02 seedsA [] 0 0) [0x001])).rst = true := by decide

/-- A BYTE in an open INSERT frame, and an END in an open QUERY frame. -/
theorem witness_NonStoringTokensKeepBitsAndSeeds :
    (∃ t, exec (.byte 0x21) (st (keyEng 0x01 7) [0x121]) = .next t ∧ ∀ d : Byte, Instr.byte 0x21 ≠ .endOfKey d) ∧
    (∃ t, exec (.endOfKey 0) (st (keyEng 0x02 7) [0x200]) = .next t ∧ (keyEng 0x02 7).op ≠ 0x01) :=
  ⟨⟨_, rfl, fun _ h => by cases h⟩, ⟨_, rfl, by decide⟩⟩

/-- Both clauses: bit 4 is in the index vector of `"key"`, bit 0 is not. -/
theorem witness_InsertStoresOnlyTheBitsOfItsKey :
    (∃ t, exec (.endOfKey 0) (st (keyEng 0x01 0) [0x200]) = .next t) ∧ (keyEng 0x01 0).mode = .key ∧
    (keyEng 0x01 0).op = 0x01 ∧
    (∃ i : Fin Config.bfe.k, ((pipelineIndices (keyEng 0x01 0))[i]).val = 4) ∧
    (∀ i : Fin Config.bfe.k, ((pipelineIndices (keyEng 0x01 0))[i]).val ≠ 0) :=
  ⟨⟨_, rfl⟩, rfl, rfl, by decide +kernel, by decide +kernel⟩

theorem witness_OnlyResetWritesSeeds :
    ∃ t, (st (keyEng 0x01 0) [0x200]).rst = false ∧ step (st (keyEng 0x01 0) [0x200]) = .next t := ⟨_, rfl, rfl⟩

theorem witness_BitsAreOnlyEverSet :
    ∃ t, (st (keyEng 0x01 7) [0x200]).rst = false ∧ step (st (keyEng 0x01 7) [0x200]) = .next t ∧
      (st (keyEng 0x01 7) [0x200]).engine.bits.toList ≠ [0] := ⟨_, rfl, rfl, by decide⟩

/-- Both running modes, and each arm of the KEY clause: BYTE, END, ERR and CMD, of a QUERY frame and of another. -/
theorem witness_ModeTransitions :
    (∃ t, step (st (idleEng 0) [0x001]) = .next t) ∧ (∃ t, step (st (idleEng 0) [0x161]) = .next t) ∧
    (∃ t, step (st (keyEng 0x02 0) [0x161]) = .next t) ∧ (∃ t, step (st (keyEng 0x02 0) [0x200]) = .next t) ∧
    (∃ t, step (st (keyEng 0x02 0) [0x300]) = .next t) ∧ (∃ t, step (st (keyEng 0x01 0) [0x300]) = .next t) ∧
    (∃ t, step (st (keyEng 0x02 0) [0x001]) = .next t) ∧ (∃ t, step (st (keyEng 0x00 0) [0x001]) = .next t) :=
  ⟨⟨_, rfl⟩, ⟨_, rfl⟩, ⟨_, rfl⟩, ⟨_, rfl⟩, ⟨_, rfl⟩, ⟨_, rfl⟩, ⟨_, rfl⟩, ⟨_, rfl⟩⟩

theorem witness_HaltedIsSetOnlyByAFailedQuery :
    (∃ t, (st (keyEng 0x02 0) [0x300]).rst = false ∧ step (st (keyEng 0x02 0) [0x300]) = .next t ∧
      halted t.engine = true) ∧
    cfg24.queryErrPolicy = .propagate ∧ halted (eng24 .key 0x02 #v[0, 0, 0]) = false :=
  ⟨⟨_, rfl, rfl, rfl⟩, rfl, rfl⟩

theorem witness_OneResponsePerClosedFrame :
    (∃ t, step (st (keyEng 0x01 0) [0x300]) = .next t ∧ t.engine.mode ≠ .halted) ∧
    (∃ t, step (st (keyEng 0x02 0) [0x300]) = .next t ∧ t.engine.mode = .halted) :=
  ⟨⟨_, rfl, by decide⟩, ⟨_, rfl, rfl⟩⟩

theorem witness_OnlyTheFiveResponsesAreEmitted :
    ∃ t, (st (keyEng 0x02 0) [0x200]).rst = false ∧ step (st (keyEng 0x02 0) [0x200]) = .next t := ⟨_, rfl, rfl⟩

/-- Each of the three ways an exception is reported. -/
theorem witness_ExceptionsArePrecise :
    (∃ t, step (st (keyEng 0x01 7) [0x300]) = .next t ∧ t.outq = (st (keyEng 0x01 7) [0x300]).outq ++ [0x80]) ∧
    (∃ t, step (st (keyEng 0x03 7) [0x200]) = .next t ∧ t.outq = (st (keyEng 0x03 7) [0x200]).outq ++ [0x81]) ∧
    (∃ t, step (st (keyEng 0x02 7) [0x300]) = .next t ∧ t.engine.mode = .halted) :=
  ⟨⟨_, rfl, rfl⟩, ⟨_, rfl, rfl⟩, ⟨_, rfl, rfl⟩⟩

theorem witness_TerminatorDataIsIgnored :
    (∃ d d' : Byte, d ≠ d' ∧ Instr.endOfKey 0x00 = .endOfKey d ∧ Instr.endOfKey 0xFF = .endOfKey d') ∧
    (∃ d d' : Byte, d ≠ d' ∧ Instr.errOfKey 0x00 = .errOfKey d ∧ Instr.errOfKey 0xFF = .errOfKey d') ∧
    (st (keyEng 0x01 0) []).rst = false :=
  ⟨⟨0x00, 0xFF, by decide, rfl, rfl⟩, ⟨0x00, 0xFF, by decide, rfl, rfl⟩, rfl⟩

/-- An open frame, where the invariant says something, before and after a step. -/
theorem witness_StepKeepsTheStreamInvariant :
    StreamInv (st (keyEng 0x01 0) [0x161]).engine ∧ (st (keyEng 0x01 0) [0x161]).engine.mode = .key ∧
      ∃ t, step (st (keyEng 0x01 0) [0x161]) = .next t :=
  ⟨fun _ => ⟨keyBytes, holds_keyEng⟩, rfl, ⟨_, rfl⟩⟩

/-- Two states that differ in a dead register, and a step of them. -/
theorem witness_DeadWorkingRegistersAreUnobservable :
    SameState (st (idleEng 0) [0x001]) (st (eng .idle 0x55 #v[1, 2, 3] [0x21] 9 0) [0x001]) ∧
      st (idleEng 0) [0x001] ≠ st (eng .idle 0x55 #v[1, 2, 3] [0x21] 9 0) [0x001] ∧
      ∃ t, step (st (idleEng 0) [0x001]) = .next t :=
  ⟨⟨⟨rfl, rfl, rfl, fun h => by cases h⟩, rfl, rfl, rfl, rfl⟩, by decide, ⟨_, rfl⟩⟩

/-- An order other than the ascending one. -/
theorem witness_InsertLoopIsOrWithMask :
    ([⟨2, by decide⟩, ⟨26, by decide⟩, ⟨2, by decide⟩] : List (Fin Config.bfe.capacity)).Perm
      (#v[⟨26, by decide⟩, ⟨2, by decide⟩, ⟨2, by decide⟩] : Indices Config.bfe).toList := by decide

theorem witness_QueryLoopIsAllBitsSet :
    ([⟨15, by decide⟩, ⟨4, by decide⟩, ⟨12, by decide⟩] : List (Fin Config.bfe.capacity)).Perm
      (#v[⟨4, by decide⟩, ⟨12, by decide⟩, ⟨15, by decide⟩] : Indices Config.bfe).toList := by decide

theorem witness_InsertIsIdempotent :
    queryBits (cfg := Config.bfe) #v[(0x00009010 : BitVec 32)] #v[⟨4, by decide⟩, ⟨12, by decide⟩, ⟨15, by decide⟩] =
      true := by decide

/-- The ends of both ranges. -/
theorem witness_RotateMovesEachBit : (1 ≤ 1 ∧ 1 ≤ 31 ∧ 0 < 32) ∧ (1 ≤ 31 ∧ 31 ≤ 31 ∧ 31 < 32) := by decide

theorem witness_TokenLevelRefinesFrameLevel :
    Config.bfe.BlockHash ∧ (idleEng 0).mode = .idle ∧ cfg24.BlockHash ∧ (eng24 .idle 0 #v[0, 0, 0]).mode = .idle :=
  ⟨fun _ _ => rfl, rfl, fun _ _ => rfl, rfl⟩

theorem witness_EveryCommandRunsToItsFrameLevelResult :
    Ready (st (idleEng 0) [0x001, 0x16B, 0x165, 0x179, 0x200, 0x300]) ∧
      (st (idleEng 0) [0x001, 0x16B, 0x165, 0x179, 0x200, 0x300]).inq =
        frameTokens ⟨0x01, keyBytes, .whole⟩ ++ [0x300] := ⟨⟨rfl, rfl⟩, by decide⟩

/-- Between the two frames an INSERT frame that a reserved CMD token breaks, and a stray BYTE. -/
theorem witness_NoFalseNegatives :
    ∃ s u : State, Ready s ∧
      s.inq = frameTokens ⟨0x01, [0x61], .whole⟩ ++
        ([0x001, 0x162, 0x003, 0x200, 0x161] ++ (frameTokens ⟨0x02, [0x61], .whole⟩ ++ [])) ∧
      Sys2Proof.core.run ([(0x61 : Byte)].length + 2 + [0x001, 0x162, 0x003, 0x200, (0x161 : Token)].length) s =
        .next u ∧ u.engine.mode = .idle :=
  ⟨st (idleEng 0) (frameTokens ⟨0x01, [0x61], .whole⟩ ++
      ([0x001, 0x162, 0x003, 0x200, 0x161] ++ (frameTokens ⟨0x02, [0x61], .whole⟩ ++ []))),
    _, ⟨rfl, rfl⟩, rfl, rfl, rfl⟩

theorem witness_NoFalseNegativesForAnyHash :
    ∃ (e' : Engine cfg24) (rs : List Byte),
      frames (eng24 .idle 0 #v[0, 0, 0]) (⟨0x01, [0x61], .whole⟩ :: [⟨0x02, [], .failed⟩]) = some (e', rs) ∧
        e'.mode = .idle := ⟨_, _, rfl, rfl⟩

theorem witness_EmptyFilterAnswersFalse :
    Ready (st (idleEng 0) [0x002, 0x200]) ∧
      (∀ w : Fin Config.bfe.wordCount, (st (idleEng 0) [0x002, 0x200]).engine.bits[w] = 0) ∧
      (st (idleEng 0) [0x002, 0x200]).inq = frameTokens ⟨0x02, [], .whole⟩ ++ [] :=
  ⟨⟨rfl, rfl⟩, by decide, by decide⟩

theorem witness_SaturatedFilterStillObeysTheRules :
    (eng24 .idle 0 #v[0xFF, 0xFF, 0xFF]).mode = .idle ∧
      ∀ w : Fin cfg24.wordCount, (eng24 .idle 0 #v[0xFF, 0xFF, 0xFF]).bits[w] = BitVec.allOnes cfg24.wordBits := by
  decide

/-- A successful and a failed INSERT, and the other order. -/
theorem witness_BitsAreTheOrOfTheInsertedKeys :
    (∃ (e' : Engine Config.bfe) (rs : List Byte),
      frames (idleEng 0) [⟨0x01, [0x61], .whole⟩, ⟨0x01, [0x62], .failed⟩] = some (e', rs)) ∧
    ([⟨0x01, [0x62], .failed⟩, ⟨0x01, [0x61], .whole⟩] : List Command).Perm
      [⟨0x01, [0x61], .whole⟩, ⟨0x01, [0x62], .failed⟩] := ⟨⟨_, _, rfl⟩, by decide⟩

theorem witness_QueriesCanBeRemoved :
    ∃ (e' : Engine Config.bfe) (rs : List Byte),
      frames (idleEng 0) ([⟨0x01, [0x61], .whole⟩] ++ ⟨0x02, [0x62], .whole⟩ :: [⟨0x03, [], .whole⟩]) =
        some (e', rs) := ⟨_, _, rfl⟩

theorem witness_SharedSeedsMakeArraysMergeable :
    (∃ (a' b' c' : Engine Config.bfe) (ra rb rc : List Byte),
      frames (idleEng 0) [⟨0x01, [0x61], .whole⟩] = some (a', ra) ∧
      frames (idleEng 0) [⟨0x01, [0x62], .whole⟩] = some (b', rb) ∧
      frames (idleEng 0) [⟨0x01, [0x62], .whole⟩, ⟨0x01, [0x61], .whole⟩] = some (c', rc)) ∧
    (∀ w : Fin Config.bfe.wordCount, (idleEng 0).bits[w] = 0) ∧
    ([⟨0x01, [0x62], .whole⟩, ⟨0x01, [0x61], .whole⟩] : List Command).Perm
      ([⟨0x01, [0x61], .whole⟩] ++ [⟨0x01, [0x62], .whole⟩]) :=
  ⟨⟨_, _, _, _, _, _, rfl, rfl, rfl⟩, by decide, by decide⟩

/-- Both endings: all tokens consumed, and halted by a failed QUERY with tokens left. -/
theorem witness_EveryOfferedTokenIsConsumed :
    (∃ t : State, (st (keyEng 0x01 0) [0x161, 0x200]).engine.mode ≠ .halted ∧
      (st (keyEng 0x01 0) [0x161, 0x200]).rst = false ∧
      Sys2Proof.core.run 2 (st (keyEng 0x01 0) [0x161, 0x200]) = .next t ∧ t.inq = [] ∧ t.engine.mode ≠ .halted) ∧
    (∃ t : State, (st (keyEng 0x02 0) [0x300, 0x161]).engine.mode ≠ .halted ∧
      (st (keyEng 0x02 0) [0x300, 0x161]).rst = false ∧
      Sys2Proof.core.run 1 (st (keyEng 0x02 0) [0x300, 0x161]) = .next t ∧ t.inq = [0x161] ∧
      t.engine.mode = .halted) :=
  ⟨⟨_, by decide, rfl, rfl, rfl, by decide⟩, ⟨_, by decide, rfl, rfl, rfl, rfl⟩⟩

theorem witness_UnfailingHostNeverHaltsTheEngine :
    Ready (st (idleEng 0) [0x001, 0x161, 0x200, 0x003, 0x200]) ∧
      NeverFails [⟨0x01, [0x61], .whole⟩, ⟨0x03, [], .whole⟩] ∧
      (st (idleEng 0) [0x001, 0x161, 0x200, 0x003, 0x200]).inq =
        commandTokens [⟨0x01, [0x61], .whole⟩, ⟨0x03, [], .whole⟩] :=
  ⟨⟨rfl, rfl⟩, by simp [NeverFails], by decide⟩

end Sys2Proof.Tests
end

section
/-! PROOFS, family 00_scope: the decoder undoes the encoder on every well-formed instruction, and so a step runs the
instruction whose token stands at the front of the IN channel. -/

namespace Sys2Proof.Laws

open Sys2Proof.Machine

/-- The family `EncodedTokenDecodes`, joined over the constructors of `Instr`. -/
theorem decode_encode (i : Instr) (h : i.wellFormed = true) : decode (encode i) = i := by
  cases i with
  | insert => exact EncodedTokenDecodes.insert h
  | query => exact EncodedTokenDecodes.query h
  | reservedCmd op => exact EncodedTokenDecodes.reservedCmd op h
  | byte data => exact EncodedTokenDecodes.byte data h
  | endOfKey data => exact EncodedTokenDecodes.endOfKey data h
  | errOfKey data => exact EncodedTokenDecodes.errOfKey data h

/-- Settles O6: the step runs what the front token decodes to, and the decoder undoes the encoder. -/
theorem stepRunsTheDecodedToken : Obligations.StepRunsTheDecodedToken := by
  intro s i ts hwf hrst hinq
  calc step s = exec (decode (encode i)) s := step_of_token hrst hinq
    _ = exec i s := by rw [decode_encode i hwf]

end Sys2Proof.Laws
end

section
/-! PROOFS, family 10_state: what one token does to the engine, said once as a relation with a rule for each outcome,
and the facts about single fields that follow from it. -/

namespace Sys2Proof.Machine

variable {cfg : Config}

/-! ### A frame that fails -/

/-- The failure of the open frame halts the engine: QueryFatal (60 R133). -/
def FailsFatally (e : Engine cfg) : Prop := e.op = 0x02 ∧ cfg.queryErrPolicy = .fatal

/-- The response of a frame whose key stream failed, where it does not halt the engine (60 R131, R132, R136). -/
def failureResponse (op : Byte) : Byte := if isReserved op then 0x81 else 0x80

/-- On this hardware the policy is FATAL, so that every failed QUERY is fatal (00 R11). -/
theorem failsFatally_bfe_iff {e : Engine Config.bfe} : FailsFatally e ↔ e.op = 0x02 := by
  simp [FailsFatally]

theorem closeFailed_of_failsFatally {e : Engine cfg} (h : FailsFatally e) :
    closeFailed e = ⟨e.setMode .halted, none, true⟩ := by
  obtain ⟨hop, hpol⟩ := h
  simp [closeFailed, hop, hpol, isReserved, opInsert, opQuery, raise_eq]

theorem closeFailed_of_not_failsFatally {e : Engine cfg} (h : ¬ FailsFatally e) :
    closeFailed e = ⟨e.setMode .idle, some (failureResponse e.op), true⟩ := by
  obtain ⟨hins, hqry, hc⟩ | ⟨hop, hc⟩ | ⟨hop, -, hc⟩ | ⟨hop, hpol, -⟩ := closeFailed_cases e
  · have hres : isReserved e.op = true := (isReserved_iff _).2 ⟨hins, hqry⟩
    simp [hc, failureResponse, hres]
  · simp [hc, failureResponse, hop, isReserved, opInsert]
  · simp [hc, failureResponse, hop, isReserved, opQuery]
  · exact absurd ⟨hop, hpol⟩ h

/-! ### The token step by MODE -/

theorem onToken_of_halted {e : Engine cfg} (hm : e.mode = .halted) (i : Instr) :
    onToken i e = ⟨e, none, false⟩ := by
  cases i <;> simp [onToken, onCmd, onByte, onEnd, onErr, hm]

theorem onToken_stray {e : Engine cfg} {i : Instr} (hm : e.mode = .idle) (hi : i.opcode? = none) :
    onToken i e = ⟨e, none, true⟩ := by
  cases i with
  | byte d => simp [onToken, onByte, hm]
  | endOfKey d => simp [onToken, onEnd, hm]
  | errOfKey d => simp [onToken, onErr, hm]
  | insert => cases hi
  | query => cases hi
  | reservedCmd op => cases hi

theorem onToken_opens {e : Engine cfg} {i : Instr} {op : Byte} (hm : e.mode = .idle) (hi : i.opcode? = some op) :
    onToken i e = ⟨openFrame op e, none, true⟩ := by
  rw [onToken_cmd hi]; simp [onCmd, hm]

theorem onToken_byte_of_key {e : Engine cfg} (hm : e.mode = .key) (d : Byte) :
    onToken (.byte d) e = ⟨absorbByte d e, none, true⟩ := by
  simp [onToken, onByte, hm]

theorem onToken_endOfKey_of_key {e : Engine cfg} (hm : e.mode = .key) (d : Byte) :
    onToken (.endOfKey d) e = closeWhole e := by
  simp [onToken, onEnd, hm]

theorem onToken_errOfKey_of_key {e : Engine cfg} (hm : e.mode = .key) (d : Byte) :
    onToken (.errOfKey d) e = closeFailed e := by
  simp [onToken, onErr, hm]

/-- A CMD token breaks a frame whose failure is fatal: it is not consumed (30 R75, R77). -/
theorem onToken_halts {e : Engine cfg} {i : Instr} {op : Byte} (hm : e.mode = .key) (hi : i.opcode? = some op)
    (hf : FailsFatally e) : onToken i e = ⟨e.setMode .halted, none, false⟩ := by
  rw [onToken_cmd hi]; simp [onCmd, hm, closeFailed_of_failsFatally hf]

/-- A CMD token breaks any other frame: its response, then the new frame (30 R75). -/
theorem onToken_reopens {e : Engine cfg} {i : Instr} {op : Byte} (hm : e.mode = .key) (hi : i.opcode? = some op)
    (hf : ¬ FailsFatally e) : onToken i e = ⟨openFrame op e, some (failureResponse e.op), true⟩ := by
  rw [onToken_cmd hi]; simp [onCmd, hm, closeFailed_of_not_failsFatally hf, openFrame]

/-! ### The token step as a relation -/

/-- The outcomes of a token step (30 R71 to R77, 41 R110, 42 R120, 60 R131 to R133): one rule for each, with the MODE
and the open frame that lead to it. `tokenStep_onToken` ties it to the model. -/
inductive TokenStep (e : Engine cfg) : Instr → TokenResult cfg → Prop
  | refusedInHalted {i : Instr} (hm : e.mode = .halted) : TokenStep e i ⟨e, none, false⟩
  | discarded {i : Instr} (hm : e.mode = .idle) (hi : i.opcode? = none) : TokenStep e i ⟨e, none, true⟩
  | opened {i : Instr} {op : Byte} (hm : e.mode = .idle) (hi : i.opcode? = some op) :
      TokenStep e i ⟨openFrame op e, none, true⟩
  | absorbed {d : Byte} (hm : e.mode = .key) : TokenStep e (.byte d) ⟨absorbByte d e, none, true⟩
  | illegalAtEnd {d : Byte} (hm : e.mode = .key) (hins : e.op ≠ 0x01) (hqry : e.op ≠ 0x02) :
      TokenStep e (.endOfKey d) ⟨e.setMode .idle, some 0x81, true⟩
  | inserted {d : Byte} (hm : e.mode = .key) (hop : e.op = 0x01) :
      TokenStep e (.endOfKey d)
        ⟨{ e with bits := insertBits e.bits (pipelineIndices e), mode := .idle }, some 0x00, true⟩
  | answered {d : Byte} (hm : e.mode = .key) (hop : e.op = 0x02) :
      TokenStep e (.endOfKey d)
        ⟨e.setMode .idle, some (queryResponse (queryBits e.bits (pipelineIndices e))), true⟩
  | failed {d : Byte} (hm : e.mode = .key) (hf : ¬ FailsFatally e) :
      TokenStep e (.errOfKey d) ⟨e.setMode .idle, some (failureResponse e.op), true⟩
  | haltedByErr {d : Byte} (hm : e.mode = .key) (hf : FailsFatally e) :
      TokenStep e (.errOfKey d) ⟨e.setMode .halted, none, true⟩
  | reopened {i : Instr} {op : Byte} (hm : e.mode = .key) (hi : i.opcode? = some op) (hf : ¬ FailsFatally e) :
      TokenStep e i ⟨openFrame op e, some (failureResponse e.op), true⟩
  | haltedByCmd {i : Instr} {op : Byte} (hm : e.mode = .key) (hi : i.opcode? = some op) (hf : FailsFatally e) :
      TokenStep e i ⟨e.setMode .halted, none, false⟩

/-- In an open frame END does what the frame's opcode asks for (30 R73). -/
theorem tokenStep_closeWhole {e : Engine cfg} (hm : e.mode = .key) (d : Byte) :
    TokenStep e (.endOfKey d) (closeWhole e) := by
  obtain ⟨hins, hqry, hc⟩ | ⟨hop, hc⟩ | ⟨hop, hc⟩ := closeWhole_cases e
  · rw [hc]; exact .illegalAtEnd hm hins hqry
  · rw [hc]; exact .inserted hm hop
  · rw [hc]; exact .answered hm hop

/-- In an open frame ERR fails it (30 R74). -/
theorem tokenStep_closeFailed {e : Engine cfg} (hm : e.mode = .key) (d : Byte) :
    TokenStep e (.errOfKey d) (closeFailed e) := by
  by_cases hf : FailsFatally e
  · rw [closeFailed_of_failsFatally hf]; exact .haltedByErr hm hf
  · rw [closeFailed_of_not_failsFatally hf]; exact .failed hm hf

/-- In an open frame a CMD token breaks it (30 R75). -/
theorem tokenStep_onToken_cmd {e : Engine cfg} {i : Instr} {op : Byte} (hm : e.mode = .key)
    (hi : i.opcode? = some op) : TokenStep e i (onToken i e) := by
  by_cases hf : FailsFatally e
  · rw [onToken_halts hm hi hf]; exact .haltedByCmd hm hi hf
  · rw [onToken_reopens hm hi hf]; exact .reopened hm hi hf

/-- Every token step has one of the outcomes of the relation. -/
theorem tokenStep_onToken (i : Instr) (e : Engine cfg) : TokenStep e i (onToken i e) := by
  cases hm : e.mode with
  | halted => rw [onToken_of_halted hm]; exact .refusedInHalted hm
  | idle =>
    cases hi : i.opcode? with
    | none => rw [onToken_stray hm hi]; exact .discarded hm hi
    | some op => rw [onToken_opens hm hi]; exact .opened hm hi
  | key =>
    cases i with
    | insert => exact tokenStep_onToken_cmd hm rfl
    | query => exact tokenStep_onToken_cmd hm rfl
    | reservedCmd op => exact tokenStep_onToken_cmd hm rfl
    | byte d => rw [onToken_byte_of_key hm]; exact .absorbed hm
    | endOfKey d => rw [onToken_endOfKey_of_key hm]; exact tokenStep_closeWhole hm d
    | errOfKey d => rw [onToken_errOfKey_of_key hm]; exact tokenStep_closeFailed hm d

/-! ### What the outcomes leave unchanged, and what they do to MODE -/

section Fields

variable {e : Engine cfg} {i : Instr} {r : TokenResult cfg}

theorem TokenStep.seed_eq (h : TokenStep e i r) : r.engine.seed = e.seed := by
  cases h <;> simp

/-- Only an END on an open INSERT frame writes the storage (20 R44). -/
theorem TokenStep.bits_cases (h : TokenStep e i r) :
    r.engine.bits = e.bits ∨
    (e.mode = .key ∧ e.op = 0x01 ∧ (∃ d, i = .endOfKey d) ∧
      r.engine.bits = insertBits e.bits (pipelineIndices e)) := by
  cases h with
  | inserted hm hop => exact .inr ⟨hm, hop, ⟨_, rfl⟩, rfl⟩
  | _ => exact .inl (by simp)

/-- How the engine comes to halt: by the fatal failure of its open frame, and nothing else changes (60 R133). An ERR
token is consumed, a CMD token is not. -/
theorem TokenStep.of_halted (h : TokenStep e i r) (hrun : e.mode ≠ .halted) (hhalt : r.engine.mode = .halted) :
    e.mode = .key ∧ FailsFatally e ∧ r.engine = e.setMode .halted ∧ r.response = none ∧
    ((∃ d, i = .errOfKey d) ∧ r.consumed = true ∨ (∃ op, i.opcode? = some op) ∧ r.consumed = false) := by
  cases h with
  | haltedByErr hm hf => exact ⟨hm, hf, rfl, rfl, .inl ⟨⟨_, rfl⟩, rfl⟩⟩
  | haltedByCmd hm hi hf => exact ⟨hm, hf, rfl, rfl, .inr ⟨⟨_, hi⟩, rfl⟩⟩
  | _ => simp_all

/-- A token that does not leave the engine HALTED is consumed (30 R75, R77). -/
theorem TokenStep.consumed_of_not_halted (h : TokenStep e i r) (hrun : r.engine.mode ≠ .halted) :
    r.consumed = true := by
  cases h with
  | refusedInHalted hm => exact absurd hm hrun
  | haltedByCmd => exact absurd rfl hrun
  | _ => rfl

/-- MODE after a token offered in IDLE (10 R24). -/
theorem TokenStep.mode_of_idle (h : TokenStep e i r) (hm : e.mode = .idle) :
    r.engine.mode = if i.opcode?.isSome then .key else .idle := by
  cases h with
  | discarded _ hi => simp [hi, hm]
  | opened _ hi => simp [hi]
  | _ => simp_all

/-- A BYTE token changes the working registers of an open frame and nothing else (30 R72, R76). -/
theorem TokenStep.of_byte {d : Byte} (h : TokenStep e (.byte d) r) :
    r.engine.op = e.op ∧ r.engine.mode = e.mode ∧ r.response = none := by
  cases h with
  | refusedInHalted | discarded => exact ⟨rfl, rfl, rfl⟩
  | absorbed => exact ⟨absorbByte_op d e, absorbByte_mode d e, rfl⟩
  | opened _ hi | reopened _ hi | haltedByCmd _ hi => cases hi

end Fields

/-! ### The storage only grows -/

theorem bitsKept_refl (bits : Storage cfg) : BitsKept bits bits := fun _ => BitVec.and_self

/-- The read-modify-writes of INSERT keep every bit that is 1 (10 R23, 20 R50). -/
theorem bitsKept_insertBits (bits : Storage cfg) (idx : Indices cfg) : BitsKept bits (insertBits bits idx) := by
  intro w
  apply BitVec.eq_of_getLsbD_eq
  intro n _
  rw [BitVec.getLsbD_and, insertBits, foldl_setBit_getLsbD]
  cases (bits[w]).getLsbD n <;> simp

/-- An empty storage has no bit set, so a QUERY of any index vector answers 0: there is at least one slot (00 R6). -/
theorem queryBits_of_bits_zero {bits : Storage cfg} (hz : ∀ w : Fin cfg.wordCount, bits[w] = 0) (idx : Indices cfg) :
    queryBits bits idx = false := by
  have hslot : idx[0]'cfg.k_pos ∈ idx.toList := by simp
  have hclear : testBit bits (idx[0]'cfg.k_pos) = false := by rw [testBit_eq, hz]; simp
  rw [queryBits, queryLoop_eq_all]
  exact List.all_eq_false.2 ⟨_, hslot, by simp [hclear]⟩

theorem TokenStep.bitsKept {e : Engine cfg} {i : Instr} {r : TokenResult cfg} (h : TokenStep e i r) :
    BitsKept e.bits r.engine.bits := by
  obtain hkept | ⟨-, -, -, hins⟩ := h.bits_cases
  · rw [hkept]; exact bitsKept_refl _
  · rw [hins]; exact bitsKept_insertBits _ _

theorem halted_iff (e : Engine cfg) : halted e = true ↔ e.mode = .halted := by
  simp [halted]

end Sys2Proof.Machine
end

section
/-! PROOFS, family 10_state: the working registers follow the streamed evaluation of the key (40 R101). -/

namespace Sys2Proof.Machine

variable {cfg : Config}

/-! ### A key cut into blocks, one byte longer -/

theorem length_tailBytes : ∀ key : List Byte, (tailBytes key).length = key.length % 4
  | _ :: _ :: _ :: _ :: rest => by simp [tailBytes, length_tailBytes rest, Nat.add_assoc]
  | [] | [_] | [_, _] | [_, _, _] => rfl

theorem tailBytes_concat (x : Byte) : ∀ key : List Byte,
    tailBytes (key ++ [x]) = if (tailBytes key).length = 3 then [] else tailBytes key ++ [x]
  | _ :: _ :: _ :: _ :: rest => tailBytes_concat x rest
  | [] | [_] | [_, _] | [_, _, _] => rfl

theorem foldBlocks_concat (rnd : Word → Word → Word) (x : Byte) : ∀ (key : List Byte) (h : Word),
    foldBlocks rnd (key ++ [x]) h =
      if (tailBytes key).length = 3 then rnd (foldBlocks rnd key h) (block (tailBytes key ++ [x]))
      else foldBlocks rnd key h
  | a :: b :: c :: d :: rest, h => foldBlocks_concat rnd x rest (rnd h (block [a, b, c, d]))
  | [], _ | [_], _ | [_, _], _ | [_, _, _], _ => rfl

/-! ### `Holds` and the operations of an open frame -/

/-- A frame just opened holds the empty key (30 R71). -/
theorem holds_openFrame (op : Byte) (e : Engine cfg) : Holds (openFrame op e) [] :=
  ⟨fun _ => rfl, rfl, rfl⟩

/-- A byte absorbed is a byte at the end of the key held (30 R72). -/
theorem Holds.absorbByte {e : Engine cfg} {key : List Byte} (hk : Holds e key) (d : Byte) :
    Holds (Machine.absorbByte d e) (key ++ [d]) := by
  obtain ⟨hh, htail, hlen⟩ := hk
  refine ⟨fun i => ?_, ?_, ?_⟩
  · rw [absorbByte_h, foldBlocks_concat, htail, hh, absorbByte_seed]
  · rw [absorbByte_tail, tailBytes_concat, htail]
  · rw [absorbByte_len, hlen, List.length_append, BitVec.ofNat_add]; rfl

/-- TAIL holds `LEN mod 4` bytes: the wrap of LEN at `2^32`, a multiple of 4, does not disturb it (10 R27). -/
theorem Holds.tail_length {e : Engine cfg} {key : List Byte} (hk : Holds e key) : e.tail.length = e.len.toNat % 4 := by
  obtain ⟨-, htail, hlen⟩ := hk
  rw [htail, hlen, length_tailBytes, BitVec.toNat_ofNat, Nat.mod_mod_of_dvd _ (by decide : 4 ∣ 2 ^ 32)]

theorem streamInv_of_mode_ne_key {e : Engine cfg} (h : e.mode ≠ .key) : StreamInv e := fun hm => absurd hm h

theorem streamInv_openFrame (op : Byte) (e : Engine cfg) : StreamInv (openFrame op e) :=
  fun _ => ⟨[], holds_openFrame op e⟩

theorem StreamInv.absorbByte {e : Engine cfg} (h : StreamInv e) (d : Byte) : StreamInv (Machine.absorbByte d e) := by
  intro hm
  obtain ⟨key, hk⟩ := h ((absorbByte_mode d e).symm.trans hm)
  exact ⟨key ++ [d], hk.absorbByte d⟩

theorem StreamInv.tokenStep {e : Engine cfg} {i : Instr} {r : TokenResult cfg} (hs : StreamInv e)
    (h : TokenStep e i r) : StreamInv r.engine := by
  cases h with
  | refusedInHalted | discarded => exact hs
  | opened | reopened => exact streamInv_openFrame _ e
  | absorbed => exact hs.absorbByte _
  | illegalAtEnd | inserted | answered | failed | haltedByErr | haltedByCmd =>
    exact streamInv_of_mode_ne_key (by simp)

theorem streamInv_construct (seedIn : BitVec (32 * cfg.k)) : StreamInv (construct cfg seedIn) :=
  streamInv_of_mode_ne_key (by simp)

end Sys2Proof.Machine
end

section
/-! PROOFS, family 10_state: the working registers are not read outside an open frame (10 R27). -/

namespace Sys2Proof.Machine

variable {cfg : Config}

theorem sameButDead_refl (e : Engine cfg) : SameButDead e e := ⟨rfl, rfl, rfl, fun _ => ⟨rfl, rfl, rfl, rfl⟩⟩

theorem SameButDead.mode_eq {e f : Engine cfg} (h : SameButDead e f) : e.mode = f.mode := by
  obtain ⟨-, -, hmode, -⟩ := h
  exact hmode

/-- In an open frame no register is dead. -/
theorem SameButDead.eq_of_key {e f : Engine cfg} (h : SameButDead e f) (hm : e.mode = .key) : e = f := by
  obtain ⟨hseed, hbits, hmode, hlive⟩ := h
  obtain ⟨hop, hh, htail, hlen⟩ := hlive hm
  cases e; cases f; simp_all

/-- Opening a frame writes every working register. -/
theorem SameButDead.openFrame_eq {e f : Engine cfg} (h : SameButDead e f) (op : Byte) :
    openFrame op e = openFrame op f := by
  obtain ⟨hseed, hbits, -, -⟩ := h
  simp [openFrame, hseed, hbits]

/-- Two engines that differ in dead registers only treat a token alike. -/
theorem SameButDead.onToken {e f : Engine cfg} (h : SameButDead e f) (i : Instr) :
    SameButDead (Machine.onToken i e).engine (Machine.onToken i f).engine ∧
    (Machine.onToken i e).response = (Machine.onToken i f).response ∧
    (Machine.onToken i e).consumed = (Machine.onToken i f).consumed := by
  have hmode : f.mode = e.mode := h.mode_eq.symm
  cases hm : e.mode with
  | key => rw [h.eq_of_key hm]; exact ⟨sameButDead_refl _, rfl, rfl⟩
  | halted => rw [onToken_of_halted hm, onToken_of_halted (hmode.trans hm)]; exact ⟨h, rfl, rfl⟩
  | idle =>
    cases hi : i.opcode? with
    | none => rw [onToken_stray hm hi, onToken_stray (hmode.trans hm) hi]; exact ⟨h, rfl, rfl⟩
    | some op =>
      rw [onToken_opens hm hi, onToken_opens (hmode.trans hm) hi, h.openFrame_eq op]
      exact ⟨sameButDead_refl _, rfl, rfl⟩

theorem SameState.apply_onToken {s t : State} (h : SameState s t) (i : Instr) :
    SameState (s.apply (onToken i s.engine)) (t.apply (onToken i t.engine)) := by
  obtain ⟨heng, hinq, houtq, hrst, hseed⟩ := h
  obtain ⟨heng', hresp, hcons⟩ := heng.onToken i
  exact ⟨heng', by simp [hinq, hcons], by simp [houtq, hresp], hrst, hseed⟩

theorem SameState.resetStep {s t : State} (h : SameState s t) : SameState (resetStep s) (resetStep t) := by
  obtain ⟨-, hinq, -, -, hseed⟩ := h
  refine ⟨?_, hinq, rfl, rfl, hseed⟩
  rw [resetStep_engine, resetStep_engine, hseed]
  exact sameButDead_refl _

end Sys2Proof.Machine
end

section
/-! PROOFS, family 10_state: steps and runs of the machine from what its state holds. -/

namespace Sys2Proof.Machine

/-! ### A step without reset -/

theorem step_of_halted {s : State} (hr : s.rst = false) (hm : s.engine.mode = .halted) : step s = .fault .halted := by
  cases hi : s.inq with
  | nil => rw [step_of_empty hr hi]; simp [waitForToken, hm]
  | cons tok ts => rw [step_of_token hr hi, exec_eq, accept_of_halted _ _ hm]

theorem step_of_waiting {s : State} (hr : s.rst = false) (hi : s.inq = []) (hm : s.engine.mode ≠ .halted) :
    step s = .next s := by
  rw [step_of_empty hr hi, waitForToken]
  cases hmode : s.engine.mode with
  | halted => exact absurd hmode hm
  | idle | key => rfl

theorem step_of_accepted {s : State} {tok : Token} {ts : List Token} (hr : s.rst = false) (hi : s.inq = tok :: ts)
    (hm : s.engine.mode ≠ .halted) : step s = .next (s.apply (onToken (decode tok) s.engine)) := by
  rw [step_of_token hr hi, exec_eq, accept_of_running _ _ hm]

/-- What each token step keeps of the engine, each step without reset keeps. -/
theorem step_keeps_of_onToken {P : Engine Config.bfe → Engine Config.bfe → Prop} (hrefl : ∀ e, P e e)
    (htok : ∀ i e, P e (onToken i e).engine) {s t : State} (hr : s.rst = false) (h : step s = .next t) :
    P s.engine t.engine := by
  obtain ⟨hr', -⟩ | ⟨-, -, -, rfl⟩ | ⟨-, tok, ts, -, -, rfl⟩ := step_next h
  · simp [hr] at hr'
  · exact hrefl _
  · exact htok _ _

/-- A consumed token goes off the IN channel, its response to the back of the OUT queue (10 R29). -/
theorem step_of_consumed {s : State} {tok : Token} {ts : List Token} {e : Engine Config.bfe} {rsp : Option Byte}
    (hr : s.rst = false) (hi : s.inq = tok :: ts) (hm : s.engine.mode ≠ .halted)
    (htok : onToken (decode tok) s.engine = ⟨e, rsp, true⟩) :
    step s = .next { s with engine := e, inq := ts, outq := s.outq ++ rsp.toList } := by
  rw [step_of_accepted hr hi hm, htok, apply_eq, hi]; rfl

theorem step_of_silent {s : State} {tok : Token} {ts : List Token} {e : Engine Config.bfe}
    (hr : s.rst = false) (hi : s.inq = tok :: ts) (hm : s.engine.mode ≠ .halted)
    (htok : onToken (decode tok) s.engine = ⟨e, none, true⟩) :
    step s = .next { s with engine := e, inq := ts } := by
  rw [step_of_consumed hr hi hm htok, Option.toList_none, List.append_nil]

theorem run_of_step {s t u : State} {n : Nat} (h : step s = .next t) (hrun : Sys2Proof.core.run n t = .next u) :
    Sys2Proof.core.run (n + 1) s = .next u := (run_step n h).trans hrun

theorem run_then_step {s t u : State} {n : Nat} (hrun : Sys2Proof.core.run n s = .next t) (h : step t = .next u) :
    Sys2Proof.core.run (n + 1) s = .next u := (run_add n 1 s t hrun).trans (run_step 0 h)

/-! ### The run over the tokens offered -/

/-- A running engine without reset takes the offered tokens one a step, to the last one or until it halts (70 R165). -/
theorem run_consumes_or_halts (ts : List Token) {s : State} (hi : s.inq = ts) (hm : s.engine.mode ≠ .halted)
    (hr : s.rst = false) : ∃ (n : Nat) (t : State), n ≤ ts.length ∧ Sys2Proof.core.run n s = .next t ∧
      ((t.inq = [] ∧ n = ts.length ∧ t.engine.mode ≠ .halted) ∨ t.engine.mode = .halted) := by
  induction ts generalizing s with
  | nil => exact ⟨0, s, le_rfl, run_zero s, .inl ⟨hi, rfl, hm⟩⟩
  | cons tok ts ih =>
    have hstep := step_of_accepted hr hi hm
    have htok := tokenStep_onToken (decode tok) s.engine
    generalize onToken (decode tok) s.engine = r at hstep htok
    by_cases hhalt : r.engine.mode = .halted
    · exact ⟨1, s.apply r, by simp, run_of_step hstep (run_zero _), .inr hhalt⟩
    · have hi' : (s.apply r).inq = ts := by simp [htok.consumed_of_not_halted hhalt, hi]
      obtain ⟨n, t, hn, hrun, hend⟩ := ih hi' hhalt hr
      refine ⟨n + 1, t, by simpa using hn, run_of_step hstep hrun, ?_⟩
      simpa using hend

/-! ### The run over a frame -/

/-- The engine after the BYTE tokens of a key in an open frame (30 R72). -/
def absorbKey {cfg : Config} (key : List Byte) (e : Engine cfg) : Engine cfg := key.foldl (fun e b => absorbByte b e) e

@[simp] theorem absorbKey_nil {cfg : Config} (e : Engine cfg) : absorbKey [] e = e := rfl

@[simp] theorem absorbKey_cons {cfg : Config} (b : Byte) (key : List Byte) (e : Engine cfg) :
    absorbKey (b :: key) e = absorbKey key (absorbByte b e) := rfl

@[simp] theorem absorbKey_mode {cfg : Config} (key : List Byte) (e : Engine cfg) :
    (absorbKey key e).mode = e.mode := by
  induction key generalizing e with
  | nil => rfl
  | cons b key ih => exact (ih _).trans (absorbByte_mode b e)

@[simp] theorem absorbKey_op {cfg : Config} (key : List Byte) (e : Engine cfg) : (absorbKey key e).op = e.op := by
  induction key generalizing e with
  | nil => rfl
  | cons b key ih => exact (ih _).trans (absorbByte_op b e)

@[simp] theorem absorbKey_bits {cfg : Config} (key : List Byte) (e : Engine cfg) :
    (absorbKey key e).bits = e.bits := by
  induction key generalizing e with
  | nil => rfl
  | cons b key ih => exact (ih _).trans (absorbByte_bits b e)

/-- An open frame absorbs the BYTE tokens of a key, one a step. -/
theorem run_keyTokens (key : List Byte) (rest : List Token) {s : State} (hr : s.rst = false)
    (hm : s.engine.mode = .key) (hi : s.inq = keyTokens key ++ rest) :
    Sys2Proof.core.run key.length s = .next { s with engine := absorbKey key s.engine, inq := rest } := by
  induction key generalizing s with
  | nil =>
    have hi' : s.inq = rest := hi
    subst hi'; rfl
  | cons b key ih =>
    have hi' : s.inq = encode (.byte b) :: (keyTokens key ++ rest) := hi
    have hm' : s.engine.mode ≠ .halted := by simp [hm]
    have htok : onToken (decode (encode (.byte b))) s.engine = ⟨absorbByte b s.engine, none, true⟩ := by
      rw [Laws.decode_encode _ rfl, onToken_byte_of_key hm]
    exact run_of_step (step_of_silent hr hi' hm' htok)
      (ih (s := { s with engine := absorbByte b s.engine, inq := _ }) hr ((absorbByte_mode _ _).trans hm) rfl)

theorem opcode?_decode_cmdToken (op : Byte) : (decode (cmdToken op)).opcode? = some op := by
  rw [Laws.decode_cmdToken]
  split_ifs with hins hqry
  · rw [hins]; rfl
  · rw [hqry]; rfl
  · rfl

/-- From IDLE the tokens of a command run up to its terminator: the frame is open and holds the key. -/
theorem run_to_terminator (c : Command) (rest : List Token) {s : State} (hs : Ready s)
    (hi : s.inq = frameTokens c ++ rest) :
    Sys2Proof.core.run (c.key.length + 1) s = .next { s with
      engine := absorbKey c.key (openFrame c.op s.engine), inq := terminatorToken c.term :: rest } := by
  obtain ⟨hm, hr⟩ := hs
  have hi' : s.inq = cmdToken c.op :: (keyTokens c.key ++ (terminatorToken c.term :: rest)) := by
    simp [hi, frameTokens]
  have hm' : s.engine.mode ≠ .halted := by simp [hm]
  exact run_of_step (step_of_silent hr hi' hm' (onToken_opens hm (opcode?_decode_cmdToken c.op)))
    (run_keyTokens c.key _ (s := { s with engine := openFrame c.op s.engine, inq := _ }) hr rfl rfl)

theorem closeWhole_of_query {cfg : Config} {e : Engine cfg} (hop : e.op = 0x02) : closeWhole e =
    ⟨e.setMode .idle, some (queryResponse (queryBits e.bits (pipelineIndices e))), true⟩ := by
  obtain ⟨-, hqry, -⟩ | ⟨hins, -⟩ | ⟨-, hc⟩ := closeWhole_cases e
  · exact absurd hop hqry
  · simp [hop] at hins
  · exact hc

end Sys2Proof.Machine
end

section
/-! PROOFS, family 10_state: the statements. -/

namespace Sys2Proof.Laws

open Sys2Proof.Machine

/-- Settles O36: `StreamInv.tokenStep` for every token, and construction leaves no frame open. -/
theorem stepKeepsTheStreamInvariant : Obligations.StepKeepsTheStreamInvariant := by
  refine ⟨fun s t hs h => ?_, fun cfg i e hs => hs.tokenStep (tokenStep_onToken i e), fun cfg e hs hm => ?_⟩
  · obtain ⟨-, rfl⟩ | ⟨-, -, -, rfl⟩ | ⟨-, tok, ts, -, -, rfl⟩ := step_next h
    · exact streamInv_construct s.seedIn
    · exact hs
    · exact hs.tokenStep (tokenStep_onToken (decode tok) s.engine)
  · obtain ⟨key, hk⟩ := hs hm
    have hlen := hk.tail_length
    exact ⟨hlen, by omega⟩

/-- Settles O38: the three kinds of step respect `SameState`, and the one stop looks at MODE and the reset input only,
which it keeps equal. -/
theorem deadWorkingRegistersAreUnobservable : Obligations.DeadWorkingRegistersAreUnobservable := by
  intro s t hst
  have ⟨heng, hinq, _, hrst, _⟩ := hst
  have hmode := heng.mode_eq
  refine ⟨fun s' h => ?_, fun f hf => ?_, fun r hr => ?_⟩
  · obtain ⟨hr, rfl⟩ | ⟨hr, hi, hm, rfl⟩ | ⟨hr, tok, ts, hi, hm, rfl⟩ := step_next h
    · exact ⟨_, step_of_reset (hrst.symm.trans hr), hst.resetStep⟩
    · exact ⟨t, step_of_waiting (hrst.symm.trans hr) (hinq.symm.trans hi) (hmode ▸ hm), hst⟩
    · exact ⟨_, step_of_accepted (hrst.symm.trans hr) (hinq.symm.trans hi) (hmode ▸ hm), hst.apply_onToken _⟩
  · obtain ⟨hr, hm, hs⟩ := step_stops (s := s) (by simp [hf])
    rw [step_of_halted (hrst.symm.trans hr) (hmode.symm.trans hm), ← hs, hf]
  · obtain ⟨-, -, hs⟩ := step_stops (s := s) (by simp [hr])
    rw [hs] at hr; cases hr

/-- Settles O7: a token that leaves the engine running is consumed, and of those that halt it only ERR is. -/
theorem tokenStepConsumesExactlyOneToken : Obligations.TokenStepConsumesExactlyOneToken := by
  intro i s t h
  obtain ⟨hm, rfl⟩ := exec_next h
  have hstep := tokenStep_onToken i s.engine
  refine ⟨fun hrun => ?_, fun hhalt => ?_⟩
  · simp [hstep.consumed_of_not_halted hrun]
  · obtain ⟨-, -, -, -, ⟨⟨d, rfl⟩, hc⟩ | ⟨⟨op, hi⟩, hc⟩⟩ := hstep.of_halted hm hhalt
    · simp [hc]
    · cases i with
      | errOfKey d => cases hi
      | _ => simp [hc]

/-- Settles O26: no outcome but `inserted` writes the storage, none writes a seed. -/
theorem nonStoringTokensKeepBitsAndSeeds : Obligations.NonStoringTokensKeepBitsAndSeeds := by
  intro i s t h hns
  obtain ⟨hm, rfl⟩ := exec_next h
  have hstep := tokenStep_onToken i s.engine
  have hbits : (onToken i s.engine).engine.bits = s.engine.bits := by
    obtain hkept | ⟨hkey, hop, ⟨d, hi⟩, -⟩ := hstep.bits_cases
    · exact hkept
    · exact absurd hi (hns hkey hop d)
  refine ⟨fun j => by rw [apply_engine, hbits], hbits, hstep.seed_eq, rfl, rfl, ?_⟩
  rintro d rfl
  obtain ⟨hop, hmode, hresp⟩ := hstep.of_byte
  exact ⟨hop, hmode, by simp [hresp]⟩

/-- Settles O28: every outcome of a token step keeps the seeds, and so does waiting. -/
theorem onlyResetWritesSeeds : Obligations.OnlyResetWritesSeeds := by
  have htok : ∀ (cfg : Config) (i : Instr) (e : Engine cfg), (onToken i e).engine.seed = e.seed :=
    fun _ i e => (tokenStep_onToken i e).seed_eq
  exact ⟨fun s t => step_keeps_of_onToken (P := fun e f => f.seed = e.seed) (fun _ => rfl) (htok _), htok⟩

/-- Settles O29: the only outcome that writes the storage ORs bits into it. -/
theorem bitsAreOnlyEverSet : Obligations.BitsAreOnlyEverSet := by
  have htok : ∀ (cfg : Config) (i : Instr) (e : Engine cfg), BitsKept e.bits (onToken i e).engine.bits :=
    fun _ i e => (tokenStep_onToken i e).bitsKept
  exact ⟨fun s t => step_keeps_of_onToken (P := fun e f => BitsKept e.bits f.bits) (fun e => bitsKept_refl e.bits)
    (htok _), htok⟩

/-- Settles O53: the run reaches the terminator with the storage as it was, and END on the QUERY frame answers FALSE. -/
theorem emptyFilterAnswersFalse : Obligations.EmptyFilterAnswersFalse := by
  intro s key rest hs hz hi
  have hrun := run_to_terminator ⟨0x02, key, .whole⟩ rest hs hi
  generalize he : absorbKey key (openFrame 0x02 s.engine) = e at hrun
  have hm : e.mode = .key := by simp [← he]
  have hop : e.op = 0x02 := by simp [← he]
  have hbits : e.bits = s.engine.bits := by simp [← he]
  have hanswer : queryBits e.bits (pipelineIndices e) = false := queryBits_of_bits_zero (hbits ▸ hz) _
  have htok : onToken (decode (terminatorToken .whole)) e = ⟨e.setMode .idle, some 0x10, true⟩ := by
    rw [terminatorToken, decode_encode _ rfl, onToken_endOfKey_of_key hm, closeWhole_of_query hop, hanswer]; rfl
  have hend := step_of_consumed (s := { s with engine := e, inq := terminatorToken .whole :: rest }) hs.2 rfl
    (by simp [hm]) htok
  exact ⟨_, run_then_step hrun hend, rfl, hbits, rfl, rfl⟩

/-- Settles O59: `run_consumes_or_halts`, an induction on the tokens offered. -/
theorem everyOfferedTokenIsConsumed : Obligations.EveryOfferedTokenIsConsumed :=
  fun _ hm hr => run_consumes_or_halts _ rfl hm hr

/-- Settles O30: from IDLE by the opcode, from KEY by the kind of the token and the failure of the open frame. -/
theorem modeTransitions : Obligations.ModeTransitions := by
  intro s t tok ts hr hi h
  obtain ⟨hm, rfl⟩ := exec_next ((step_of_token hr hi).symm.trans h)
  have htok := tokenStep_onToken (decode tok) s.engine
  refine ⟨htok.mode_of_idle, fun hkey => ?_, hm⟩
  rw [apply_engine]
  generalize onToken (decode tok) s.engine = r at htok
  generalize decode tok = i at htok
  cases htok with
  | refusedInHalted hm' | discarded hm' | opened hm' => simp [hkey] at hm'
  | absorbed => simp [hkey]
  | illegalAtEnd | inserted | answered => rfl
  | failed _ hf => exact (if_neg (failsFatally_bfe_iff.not.1 hf)).symm
  | haltedByErr _ hf => exact (if_pos (failsFatally_bfe_iff.1 hf)).symm
  | reopened _ hi hf =>
    have hop := failsFatally_bfe_iff.not.1 hf
    cases i with
    | insert | query | reservedCmd => exact (if_neg hop).symm
    | byte | endOfKey | errOfKey => cases hi
  | haltedByCmd _ hi hf =>
    have hop := failsFatally_bfe_iff.1 hf
    cases i with
    | insert | query | reservedCmd => exact (if_pos hop).symm
    | byte | endOfKey | errOfKey => cases hi

/-- Settles O31: `TokenStep.of_halted` says how the engine comes to halt. -/
theorem haltedIsSetOnlyByAFailedQuery : Obligations.HaltedIsSetOnlyByAFailedQuery := by
  refine ⟨fun s t hr h hhalt => ?_, fun cfg i e hpol hrun => ?_, fun cfg e => halted_iff e⟩
  · rw [halted_iff] at hhalt
    obtain ⟨hr', -⟩ | ⟨-, -, hm, rfl⟩ | ⟨-, tok, ts, hi, hm, rfl⟩ := step_next h
    · simp [hr] at hr'
    · exact absurd hhalt hm
    · obtain ⟨hkey, ⟨hop, -⟩, heng, hresp, hkind⟩ :=
        (tokenStep_onToken (decode tok) s.engine).of_halted hm hhalt
      have hbyte (d : Byte) : decode tok ≠ .byte d := fun hd => by simp [hd, Instr.opcode?] at hkind
      have hend (d : Byte) : decode tok ≠ .endOfKey d := fun hd => by simp [hd, Instr.opcode?] at hkind
      exact ⟨hkey, hop, by simp [hresp], by simp [heng], by simp [heng], tok, ts, hi, hbyte, hend⟩
  · rw [Bool.eq_false_iff, Ne, halted_iff] at hrun ⊢
    intro hhalt
    obtain ⟨-, ⟨-, hfatal⟩, -⟩ := (tokenStep_onToken i e).of_halted hrun hhalt
    simp [hpol] at hfatal

/-- Settles O9: the step is `resetStep`, and its engine is the constructed one. -/
theorem resetStepConstructsANewInstance : Obligations.ResetStepConstructsANewInstance := by
  intro s hr
  exact ⟨resetStep s, step_of_reset hr, fun w => by simp, fun i => by simp [seedSlice], rfl, rfl, rfl, rfl, rfl⟩

/-- Settles O10: the fields of the constructed engine. -/
theorem resetValues : Obligations.ResetValues := by
  refine ⟨fun seedIn => ⟨fun w => ?_, fun i => ?_, rfl, rfl, rfl⟩, rfl⟩
  · exact construct_bits seedIn w w.isLt
  · exact construct_seed seedIn i i.isLt

/-- Settles O37: construction leaves no frame open. -/
theorem streamInvariantHoldsAtReset : Obligations.StreamInvariantHoldsAtReset :=
  ⟨streamInv_construct _, fun seedIn => streamInv_construct seedIn⟩

end Sys2Proof.Laws
end

section
/-! PROOFS, family 20_memory: a bit index and its place in the storage, and what the read-modify-writes of INSERT do to
words and to bits. -/

namespace Sys2Proof.Machine

variable {cfg : Config}

/-- The address split of 20 R40 loses nothing. -/
theorem wordOf_mul_add_posOf (j : Fin cfg.capacity) :
    (wordOf j).val * cfg.wordBits + (posOf j).val = j.val :=
  Nat.div_add_mod' j.val cfg.wordBits

/-- Only the bit index itself has its word and its position (20 R40). -/
theorem wordOf_eq_and_posOf_eq_iff {i j : Fin cfg.capacity} :
    wordOf i = wordOf j ∧ (posOf j).val = (posOf i).val ↔ i = j := by
  constructor
  · rintro ⟨hword, hpos⟩
    apply Fin.ext
    rw [← wordOf_mul_add_posOf i, ← wordOf_mul_add_posOf j, hword, hpos]
  · rintro rfl
    exact ⟨rfl, rfl⟩

/-- The read-modify-writes of any indices, read bit by bit: theirs are set, every other bit is as before (20 R44). -/
theorem testBit_foldl_setBit (js : List (Fin cfg.capacity)) (bits : Storage cfg) (j : Fin cfg.capacity) :
    testBit (js.foldl setBit bits) j = (testBit bits j || decide (j ∈ js)) := by
  have hany : (js.any fun i => decide (wordOf i = wordOf j) && decide ((posOf j).val = (posOf i).val)) =
      decide (j ∈ js) := by
    rw [Bool.eq_iff_iff, List.any_eq_true, decide_eq_true_iff]
    simp only [Bool.and_eq_true, decide_eq_true_iff, wordOf_eq_and_posOf_eq_iff, exists_eq_right]
  rw [testBit_eq, testBit_eq, foldl_setBit_getLsbD, hany]

theorem mem_indices_iff {idx : Indices cfg} {j : Fin cfg.capacity} :
    j ∈ idx.toList ↔ ∃ i : Fin cfg.k, idx[i] = j := by
  rw [Vector.mem_toList_iff, Vector.mem_iff_getElem]
  exact ⟨fun ⟨n, hn, h⟩ => ⟨⟨n, hn⟩, h⟩, fun ⟨i, h⟩ => ⟨i.val, i.isLt, h⟩⟩

/-- INSERT, read bit by bit (41 R110). -/
theorem testBit_insertBits (bits : Storage cfg) (idx : Indices cfg) (j : Fin cfg.capacity) :
    testBit (insertBits bits idx) j = (testBit bits j || decide (∃ i : Fin cfg.k, idx[i] = j)) := by
  rw [insertBits, testBit_foldl_setBit, decide_eq_decide.2 mem_indices_iff]

/-- The bits that the slots set in a word are those of its mask, whatever the order of the slots (20 R50, 40 R102). -/
theorem mask_getLsbD_of_perm {idx : Indices cfg} {order : List (Fin cfg.capacity)} (h : order.Perm idx.toList)
    (w : Fin cfg.wordCount) (n : Nat) :
    (mask idx w).getLsbD n = order.any fun j => decide (wordOf j = w) && decide (n = (posOf j).val) := by
  rw [mask_getLsbD, h.any_eq]

theorem closeWhole_of_insert {e : Engine cfg} (hop : e.op = 0x01) : closeWhole e =
    ⟨{ e with bits := insertBits e.bits (pipelineIndices e), mode := .idle }, some 0x00, true⟩ := by
  obtain ⟨hins, -, -⟩ | ⟨-, hc⟩ | ⟨hqry, -⟩ := closeWhole_cases e
  · exact absurd hop hins
  · exact hc
  · simp [hop] at hqry

end Sys2Proof.Machine
end

section
/-! PROOFS, family 20_memory: the statements. -/

namespace Sys2Proof.Laws

open Sys2Proof.Machine

/-- Settles O39: quotient and remainder by `WORD_BITS`, and the reading rules of a mask and of a tested bit. -/
theorem bitIndexNamesOneBitOfOneWord : Obligations.BitIndexNamesOneBitOfOneWord := by
  intro cfg j bits
  exact ⟨wordOf_mul_add_posOf j, bitMask_getLsbD (posOf j), testBit_eq bits j⟩

/-- Settles O41: bit by bit, the loop adds to a word the bits of the indices that fall in it, which are the mask's. -/
theorem insertLoopIsOrWithMask : Obligations.InsertLoopIsOrWithMask := by
  intro cfg bits idx order hperm w
  apply BitVec.eq_of_getLsbD_eq
  intro n _
  rw [foldl_setBit_getLsbD, BitVec.getLsbD_or, mask_getLsbD_of_perm hperm]

/-- Settles O27: END on an open INSERT frame stores `insertBits` of its index vector, read bit by bit. -/
theorem insertStoresOnlyTheBitsOfItsKey : Obligations.InsertStoresOnlyTheBitsOfItsKey := by
  intro d s t hkey hop h
  obtain ⟨-, rfl⟩ := exec_next h
  rw [onToken_endOfKey_of_key hkey, closeWhole_of_insert hop]
  refine ⟨fun j => ⟨fun hslot => ?_, fun hother => ?_⟩, rfl, rfl, rfl⟩
  · rw [apply_engine, testBit_insertBits, decide_eq_true hslot, Bool.or_true]
  · rw [apply_engine, testBit_insertBits, decide_eq_false (not_exists.2 hother), Bool.or_false]

end Sys2Proof.Laws
end

section
/-! PROOFS, family 30_encoding: the encoder undoes the decoder on every token, and what the frame decoder reads. -/

namespace Sys2Proof.Laws

open Sys2Proof.Machine

/-! ### Every token is one of the encoder's -/

/-- KIND and DATA are the whole token (30 R61). -/
theorem mkToken_tokenKind_tokenData (t : Token) : mkToken (tokenKind t) (tokenData t) = t :=
  BitVec.extractLsb'_append_extractLsb'

/-- A fact about the tokens of each KIND is a fact about every token: all four values are defined (30 R62). -/
theorem forall_token {P : Token → Prop} (hcmd : ∀ op, P (cmdToken op)) (hbyte : ∀ d, P (encode (.byte d)))
    (hend : ∀ d, P (encode (.endOfKey d))) (herr : ∀ d, P (encode (.errOfKey d))) (t : Token) : P t := by
  have hkinds : ∀ kind : BitVec 2, kind = 0b00#2 ∨ kind = 0b01#2 ∨ kind = 0b10#2 ∨ kind = 0b11#2 := by decide
  rw [← mkToken_tokenKind_tokenData t]
  obtain h | h | h | h := hkinds (tokenKind t) <;> rw [h]
  · exact hcmd _
  · exact hbyte _
  · exact hend _
  · exact herr _

theorem wellFormed_decode : ∀ t : Token, (decode t).wellFormed = true := by
  refine forall_token (fun op => ?_) (fun d => ?_) (fun d => ?_) (fun d => ?_)
  · rw [decode_cmdToken]
    split_ifs with hins hqry
    · rfl
    · rfl
    · exact (isReserved_iff op).2 ⟨hins, hqry⟩
  all_goals rw [decode_encode _ rfl]; rfl

theorem encode_decode : ∀ t : Token, encode (decode t) = t := by
  refine forall_token (fun op => ?_) (fun d => ?_) (fun d => ?_) (fun d => ?_)
  · rw [decode_cmdToken]
    split_ifs with hins hqry
    · rw [hins]; rfl
    · rw [hqry]; rfl
    · rfl
  all_goals rw [decode_encode _ rfl]

/-- The opcode byte of a decoded CMD token is the token's DATA (30 R64, R65). -/
theorem eq_cmdToken_of_opcode? {t : Token} {op : Byte} (h : (decode t).opcode? = some op) : t = cmdToken op := by
  rw [← encode_decode t]
  cases hd : decode t with
  | insert | query | reservedCmd => rw [hd] at h; cases h; rfl
  | byte | endOfKey | errOfKey => rw [hd] at h; cases h

/-! ### The frame decoder -/

/-- A token that closes a frame, with any DATA bits (30 R67, R68). -/
def terminatorTokenWith : Terminator → Byte → Token
  | .whole, d => encode (.endOfKey d)
  | .failed, d => encode (.errOfKey d)

/-- The host's terminator is the one with DATA 0. -/
theorem terminatorToken_eq (term : Terminator) : terminatorToken term = terminatorTokenWith term 0 := by
  cases term <;> rfl

theorem decodeKey_byte (b : Byte) (ts : List Token) :
    decodeKey (encode (.byte b) :: ts) = (decodeKey ts).map fun r => (b :: r.1, r.2) := by
  rw [decodeKey, decode_encode _ rfl]

theorem decodeKey_terminator (term : Terminator) (d : Byte) (ts : List Token) :
    decodeKey (terminatorTokenWith term d :: ts) = some ([], term, ts) := by
  cases term <;> rw [terminatorTokenWith, decodeKey, decode_encode _ rfl]

theorem decodeKey_keyTokens (key : List Byte) (term : Terminator) (d : Byte) (rest : List Token) :
    decodeKey (keyTokens key ++ terminatorTokenWith term d :: rest) = some (key, term, rest) := by
  induction key with
  | nil => exact decodeKey_terminator term d rest
  | cons b key ih =>
    exact (decodeKey_byte b (keyTokens key ++ terminatorTokenWith term d :: rest)).trans (by rw [ih]; rfl)

/-- The tokens that the key decoder accepts are those it reads back from the encoder. -/
theorem eq_of_decodeKey {ts rest : List Token} {key : List Byte} {term : Terminator}
    (h : decodeKey ts = some (key, term, rest)) :
    ∃ d : Byte, ts = keyTokens key ++ terminatorTokenWith term d :: rest := by
  induction ts generalizing key with
  | nil => cases h
  | cons t ts ih =>
    have ht : t = encode (decode t) := (encode_decode t).symm
    rw [decodeKey] at h
    cases hd : decode t with
    | insert | query | reservedCmd => rw [hd] at h; cases h
    | byte b =>
      rw [hd] at h ht
      obtain ⟨⟨key', term', rest'⟩, hkey, heq⟩ := Option.map_eq_some_iff.1 h
      cases heq
      obtain ⟨d, rfl⟩ := ih hkey
      exact ⟨d, by rw [ht]; rfl⟩
    | endOfKey d => rw [hd] at h ht; cases h; exact ⟨d, by rw [ht]; rfl⟩
    | errOfKey d => rw [hd] at h ht; cases h; exact ⟨d, by rw [ht]; rfl⟩

/-- An accepted frame is a CMD token and an accepted key. -/
theorem eq_of_decodeFrame {ts rest : List Token} {c : Command} (h : decodeFrame ts = some (c, rest)) :
    ∃ d : Byte, ts = cmdToken c.op :: (keyTokens c.key ++ terminatorTokenWith c.term d :: rest) := by
  cases ts with
  | nil => cases h
  | cons t ts =>
    rw [decodeFrame] at h
    cases hop : (decode t).opcode? with
    | none => rw [hop] at h; cases h
    | some op =>
      cases hkey : decodeKey ts with
      | none => rw [hop, hkey] at h; cases h
      | some r =>
        rw [hop, hkey] at h; cases h
        obtain ⟨d, hts⟩ := eq_of_decodeKey hkey
        exact ⟨d, by rw [eq_cmdToken_of_opcode? hop, hts]⟩

end Sys2Proof.Laws
end

section
/-! PROOFS, family 30_encoding: the statements about the decoders. -/

namespace Sys2Proof.Laws

open Sys2Proof.Machine

/-- Settles O3: `decode_encode` one way, and the other way by the KIND of the token. -/
theorem tokenDecodeEncodeRoundTrip : Obligations.TokenDecodeEncodeRoundTrip :=
  ⟨decode_encode, fun t => ⟨wellFormed_decode t, encode_decode t⟩⟩

/-- Settles O4: the opcode byte by `opcode?_decode_cmdToken`, the key by induction in `decodeKey_keyTokens`. -/
theorem frameDecodeEncodeRoundTrip : Obligations.FrameDecodeEncodeRoundTrip := by
  intro c rest
  have hframe : frameTokens c ++ rest = cmdToken c.op :: (keyTokens c.key ++ terminatorTokenWith c.term 0 :: rest) := by
    simp [frameTokens, terminatorToken_eq]
  rw [hframe, decodeFrame, opcode?_decode_cmdToken, decodeKey_keyTokens]

/-- Settles O5: `eq_of_decodeFrame`, for each terminator. -/
theorem frameDecoderAcceptsOnlyFrames : Obligations.FrameDecoderAcceptsOnlyFrames := by
  intro ts ⟨op, key, term⟩ rest h
  obtain ⟨d, rfl⟩ := eq_of_decodeFrame h
  cases term with
  | whole => exact ⟨d, rfl⟩
  | failed => exact ⟨d, rfl⟩

/-- Settles O1: the decoder law of each token's KIND, at its DATA. -/
theorem decodeReadsTheTokensOfTheTables : Obligations.DecodeReadsTheTokensOfTheTables :=
  ⟨decode_cmdToken 0x01, decode_cmdToken 0x02, decode_cmdToken 0x00, decode_cmdToken 0x03, decode_cmdToken 0xFF,
    decode_byteToken 0x6B, decode_byteToken 0x00, decode_endToken 0x00, decode_endToken 0xFF, decode_errToken 0x00⟩

/-- Settles O2: one decoder law for each KIND. -/
theorem decodeIsByKindAndWholeOpcodeByte : Obligations.DecodeIsByKindAndWholeOpcodeByte :=
  fun d => ⟨decode_cmdToken d, decode_byteToken d, decode_endToken d, decode_errToken d⟩

end Sys2Proof.Laws
end

section
/-! PROOFS, family 30_encoding: the meaning of a token in a running engine, the responses, and the streamed key. -/

namespace Sys2Proof.Machine

variable {cfg : Config}

/-! ### A token meaning that is accepted -/

theorem exec_of_halted {s : State} (hm : s.engine.mode = .halted) (i : Instr) : exec i s = .fault .halted := by
  rw [exec_eq, accept_of_halted _ _ hm]

theorem exec_of_onToken {s : State} {i : Instr} {r : TokenResult Config.bfe} (hm : s.engine.mode ≠ .halted)
    (htok : onToken i s.engine = r) : exec i s = .next (s.apply r) := by
  rw [exec_eq, accept_of_running _ _ hm, htok]

/-- A consumed token without a response leaves the OUT queue as it is. -/
theorem exec_of_silent {s : State} {i : Instr} {e : Engine Config.bfe} (hm : s.engine.mode ≠ .halted)
    (htok : onToken i s.engine = ⟨e, none, true⟩) :
    exec i s = .next { s with engine := e, inq := s.inq.tail } := by
  rw [exec_of_onToken hm htok, apply_eq]; simp

/-- A token that closes a frame with a response, up to the registers that are dead after it. -/
theorem exec_of_closing {s : State} {i : Instr} {e f : Engine Config.bfe} {rsp : Byte} (hm : s.engine.mode = .key)
    (htok : onToken i s.engine = ⟨e, some rsp, true⟩) (he : SameButDead e f) :
    ∃ t : State, exec i s = .next t ∧
      SameState t { s with engine := f, inq := s.inq.tail, outq := s.outq ++ [rsp] } :=
  ⟨_, exec_of_onToken (by simp [hm]) htok, he, rfl, rfl, rfl, rfl⟩

theorem SameState.halted_eq {s t : State} (h : SameState s t) : halted s.engine = halted t.engine := by
  obtain ⟨heng, -⟩ := h
  rw [halted, halted, heng.mode_eq]

/-! ### Failed frames by opcode -/

theorem not_failsFatally_of_op_ne {e : Engine cfg} (hop : e.op ≠ 0x02) : ¬ FailsFatally e := fun ⟨h, _⟩ => hop h

theorem not_failsFatally_of_propagate {e : Engine cfg} (hpol : cfg.queryErrPolicy = .propagate) :
    ¬ FailsFatally e := by
  rintro ⟨-, hfatal⟩
  simp [hpol] at hfatal

theorem failureResponse_of_reserved {op : Byte} (hins : op ≠ 0x01) (hqry : op ≠ 0x02) :
    failureResponse op = 0x81 := if_pos ((isReserved_iff op).2 ⟨hins, hqry⟩)

theorem closeWhole_of_reserved {e : Engine cfg} (hins : e.op ≠ 0x01) (hqry : e.op ≠ 0x02) :
    closeWhole e = ⟨e.setMode .idle, some 0x81, true⟩ :=
  if_pos ((isReserved_iff e.op).2 ⟨hins, hqry⟩)

/-! ### Responses -/

section Responses

variable {e : Engine cfg} {i : Instr} {r : TokenResult cfg}

/-- A token that closes a frame and does not halt the engine is answered (30 R70). -/
theorem TokenStep.response_of_closing (h : TokenStep e i r) (hkey : e.mode = .key) (hi : ∀ d, i ≠ .byte d)
    (hrun : r.engine.mode ≠ .halted) : ∃ rsp, r.response = some rsp := by
  cases h with
  | refusedInHalted hm | discarded hm | opened hm => simp [hkey] at hm
  | absorbed => exact absurd rfl (hi _)
  | illegalAtEnd | inserted | answered | failed | reopened => exact ⟨_, rfl⟩
  | haltedByErr | haltedByCmd => exact absurd rfl hrun

/-- Every other token gets no response. -/
theorem TokenStep.response_of_not_closing (h : TokenStep e i r)
    (hopen : ¬ (e.mode = .key ∧ (∀ d, i ≠ .byte d) ∧ r.engine.mode ≠ .halted)) : r.response = none := by
  cases h with
  | refusedInHalted | discarded | opened | absorbed | haltedByErr | haltedByCmd => rfl
  | illegalAtEnd hm | inserted hm | answered hm | failed hm => simp [hm] at hopen
  | reopened hm hi => exact absurd ⟨hm, fun d hd => by simp [hd, Instr.opcode?] at hi, by simp⟩ hopen

theorem failureResponse_cases (op : Byte) : failureResponse op = 0x80 ∨ failureResponse op = 0x81 := by
  unfold failureResponse
  cases isReserved op
  · exact .inl rfl
  · exact .inr rfl

theorem queryResponse_cases (present : Bool) : queryResponse present = 0x10 ∨ queryResponse present = 0x11 := by
  cases present
  · exact .inl rfl
  · exact .inr rfl

/-- The responses of the table (30 R69). -/
theorem TokenStep.response_mem (h : TokenStep e i r) :
    ∀ rsp ∈ r.response.toList, rsp ∈ ([0x00, 0x10, 0x11, 0x80, 0x81] : List Byte) := by
  cases h with
  | refusedInHalted | discarded | opened | absorbed | haltedByErr | haltedByCmd => simp
  | illegalAtEnd | inserted => simp
  | answered =>
    obtain h | h := queryResponse_cases (queryBits e.bits (pipelineIndices e)) <;> simp [h]
  | failed | reopened =>
    obtain h | h := failureResponse_cases e.op <;> simp [h]

/-- A terminator is consumed in every engine that runs (30 R73, R74, R76). -/
theorem TokenStep.consumed_of_terminator (h : TokenStep e i r) (hm : e.mode ≠ .halted) (hi : i.opcode? = none) :
    r.consumed = true := by
  cases h with
  | refusedInHalted hm' => exact absurd hm' hm
  | haltedByCmd _ hi' => simp [hi] at hi'
  | _ => rfl

end Responses

/-! ### Terminators of any DATA -/

theorem wellFormed_of_opcode?_eq_none {i : Instr} (h : i.opcode? = none) : i.wellFormed = true := by
  cases i with
  | reservedCmd op => cases h
  | _ => rfl

/-- Two terminators that every engine treats alike step alike: the token that differs is consumed, or nothing is. -/
theorem step_congr_of_terminators {s : State} {ts : List Token} {i j : Instr} (hi : i.opcode? = none)
    (hj : j.opcode? = none) (htok : onToken i s.engine = onToken j s.engine) (hr : s.rst = false) :
    step { s with inq := encode i :: ts } = step { s with inq := encode j :: ts } := by
  by_cases hm : s.engine.mode = .halted
  · have hstop (k : Instr) : step { s with inq := encode k :: ts } = .fault .halted := step_of_halted hr hm
    rw [hstop, hstop]
  · have hnext (k : Instr) (hk : k.opcode? = none) : step { s with inq := encode k :: ts } =
        .next { s with engine := (onToken k s.engine).engine, inq := ts,
                       outq := s.outq ++ (onToken k s.engine).response.toList } := by
      refine step_of_consumed hr rfl hm ?_
      have hconsumed := (tokenStep_onToken k s.engine).consumed_of_terminator hm hk
      rw [Laws.decode_encode k (wellFormed_of_opcode?_eq_none hk), ← hconsumed]
    rw [hnext i hi, hnext j hj, htok]

/-! ### The storage operations on the frame's index vector -/

/-- INSERT word by word (41 R110). -/
theorem insertBits_eq_or_mask (bits : Storage cfg) (idx : Indices cfg) :
    insertBits bits idx = Vector.ofFn fun w => bits[w] ||| mask idx w := by
  apply Vector.ext
  intro n hn
  rw [Vector.getElem_ofFn]
  exact Laws.insertLoopIsOrWithMask cfg bits idx idx.toList (.refl _) ⟨n, hn⟩

/-- QUERY slot by slot (42 R120). -/
theorem queryBits_eq_true_iff (bits : Storage cfg) (idx : Indices cfg) :
    queryBits bits idx = true ↔ ∀ i : Fin cfg.k, (bits[wordOf idx[i]]).getLsbD (posOf idx[i]).val = true := by
  rw [queryBits, queryLoop_eq_all, List.all_eq_true]
  simp only [mem_indices_iff, forall_exists_index, forall_apply_eq_imp_iff, testBit_eq]

/-- Leaving BITS as they are lies inside what a failed INSERT may do (41 R113). -/
theorem failedInsertEnvelope_refl (idx : Indices cfg) (bits : Storage cfg) : FailedInsertEnvelope idx bits bits := by
  refine ⟨bitsKept_refl bits, fun w => ?_⟩
  apply BitVec.eq_of_getLsbD_eq
  intro n _
  rw [BitVec.getLsbD_and, BitVec.getLsbD_or]
  cases (bits[w]).getLsbD n <;> simp

/-! ### The streamed key -/

@[simp] theorem absorbKey_seed (key : List Byte) (e : Engine cfg) : (absorbKey key e).seed = e.seed := by
  induction key generalizing e with
  | nil => rfl
  | cons b key ih => exact (ih _).trans (absorbByte_seed b e)

/-- Absorbed bytes go to the end of the key held (30 R72). -/
theorem Holds.absorbKey {e : Engine cfg} {held : List Byte} (hk : Holds e held) (key : List Byte) :
    Holds (Machine.absorbKey key e) (held ++ key) := by
  induction key generalizing e held with
  | nil => rw [List.append_nil]; exact hk
  | cons b key ih =>
    have hcons : held ++ b :: key = held ++ [b] ++ key := by simp
    rw [hcons]
    exact ih (hk.absorbByte b)

/-- After the CMD token and the BYTE tokens of a key the frame holds the key (40 R101). -/
theorem holds_absorbKey_openFrame (op : Byte) (key : List Byte) (e : Engine cfg) :
    Holds (absorbKey key (openFrame op e)) key :=
  (holds_openFrame op e).absorbKey key

/-- What END computes in a slot is the hash of the key held (40 R101). -/
theorem Holds.hashFinish_eq {e : Engine cfg} {key : List Byte} (hk : Holds e key) (hH : cfg.BlockHash)
    (i : Fin cfg.k) : cfg.hashFinish e.h[i] e.tail e.len = cfg.hash32 key e.seed[i] := by
  obtain ⟨hh, htail, hlen⟩ := hk
  rw [hH, wholeKey, hh, htail, hlen]

theorem Holds.pipelineIndices_eq {e : Engine cfg} {key : List Byte} (hk : Holds e key) (hH : cfg.BlockHash) :
    pipelineIndices e = hashKey cfg e.seed key := by
  unfold pipelineIndices hashKey
  simp only [hk.hashFinish_eq hH]

/-- A slot of `hash_key` (40 R96). -/
theorem hashKey_getElem (seed : Vector Word cfg.k) (key : List Byte) (i : Fin cfg.k) :
    (hashKey cfg seed key)[i] = bitIndex cfg (cfg.hash32 key seed[i]) := by
  simp [hashKey]

end Sys2Proof.Machine
end

section
/-! PROOFS, family 30_encoding: the token level refines the frame level (30 R82). -/

namespace Sys2Proof.Machine

variable {cfg : Config}

/-! ### Whole frames -/

section Closing

variable {e f : Engine cfg} {op : Byte} {key : List Byte}

/-- A frame just closed and an engine in IDLE with the same SEED and BITS differ in dead registers only. -/
theorem sameButDead_setMode_idle (hseed : e.seed = f.seed) (hbits : e.bits = f.bits) (hf : f.mode = .idle) :
    SameButDead (e.setMode .idle) f := ⟨hseed, hbits, hf.symm, fun h => by simp at h⟩

/-- END closes a frame that holds the key as the frame-level function says. -/
theorem closeWhole_refines (hop : e.op = op) (hk : Holds e key) (hH : cfg.BlockHash) (hseed : e.seed = f.seed)
    (hbits : e.bits = f.bits) (hf : f.mode = .idle) :
    ∃ e', closeWhole e = ⟨e', (frameIdle f ⟨op, key, .whole⟩).2, true⟩ ∧
      SameButDead e' (frameIdle f ⟨op, key, .whole⟩).1 := by
  have hidx : pipelineIndices e = hashKey cfg f.seed key := by rw [hk.pipelineIndices_eq hH, hseed]
  obtain ⟨hins, hqry, hc⟩ | ⟨hins, hc⟩ | ⟨hqry, hc⟩ := closeWhole_cases e
  · have hframe : frameIdle f ⟨op, key, .whole⟩ = (f, some 0x81) :=
      if_pos ((isReserved_iff op).2 ⟨hop ▸ hins, hop ▸ hqry⟩)
    rw [hc, hframe]
    exact ⟨_, rfl, sameButDead_setMode_idle hseed hbits hf⟩
  · have hframe : frameIdle f ⟨op, key, .whole⟩ =
        ({ f with bits := insertBits f.bits (hashKey cfg f.seed key) }, some 0x00) := by
      rw [insertBits_eq_or_mask, ← hop, hins]; rfl
    rw [hc, hframe, hidx, hbits]
    exact ⟨_, rfl, hseed, rfl, hf.symm, fun h => by simp at h⟩
  · have hframe : frameIdle f ⟨op, key, .whole⟩ =
        (f, some (queryResponse (queryBits f.bits (hashKey cfg f.seed key)))) := by
      rw [queryBits, queryLoop_eq_all, ← hop, hqry]; rfl
    rw [hc, hframe, hidx, hbits]
    exact ⟨_, rfl, sameButDead_setMode_idle hseed hbits hf⟩

/-- ERR closes a frame as the frame-level function says, whatever key it holds. -/
theorem closeFailed_refines (hop : e.op = op) (hseed : e.seed = f.seed) (hbits : e.bits = f.bits)
    (hf : f.mode = .idle) :
    ∃ e', closeFailed e = ⟨e', (frameIdle f ⟨op, key, .failed⟩).2, true⟩ ∧
      SameButDead e' (frameIdle f ⟨op, key, .failed⟩).1 := by
  obtain ⟨hins, hqry, hc⟩ | ⟨hins, hc⟩ | ⟨hqry, hpol, hc⟩ | ⟨hqry, hpol, hc⟩ := closeFailed_cases e
  · have hframe : frameIdle f ⟨op, key, .failed⟩ = (f, some 0x81) :=
      if_pos ((isReserved_iff op).2 ⟨hop ▸ hins, hop ▸ hqry⟩)
    rw [hc, hframe]
    exact ⟨_, rfl, sameButDead_setMode_idle hseed hbits hf⟩
  · have hframe : frameIdle f ⟨op, key, .failed⟩ = (f, some 0x80) := by rw [← hop, hins]; rfl
    rw [hc, hframe]
    exact ⟨_, rfl, sameButDead_setMode_idle hseed hbits hf⟩
  · have hframe : frameIdle f ⟨op, key, .failed⟩ = (f, some 0x80) := by
      simp [frameIdle, ← hop, hqry, hpol, isReserved, opInsert, opQuery, respHashError]
    rw [hc, hframe]
    exact ⟨_, rfl, sameButDead_setMode_idle hseed hbits hf⟩
  · have hframe : frameIdle f ⟨op, key, .failed⟩ = (f.setMode .halted, none) := by
      simp [frameIdle, ← hop, hqry, hpol, isReserved, opInsert, opQuery]
    rw [hc, hframe]
    exact ⟨_, rfl, hseed, hbits, rfl, fun h => by simp at h⟩

end Closing

/-- The terminator of a command completes it with the frame-level result, once the frame holds its key. -/
theorem onToken_terminator_refines {e : Engine cfg} {c : Command} (hH : cfg.BlockHash) (hm : e.mode = .idle) :
    ∃ e', onToken (decode (terminatorToken c.term)) (absorbKey c.key (openFrame c.op e)) =
        ⟨e', (frameIdle e c).2, true⟩ ∧ SameButDead e' (frameIdle e c).1 := by
  obtain ⟨op, key, term⟩ := c
  have hkey : (absorbKey key (openFrame op e)).mode = .key := by simp
  cases term with
  | whole =>
    rw [terminatorToken, Laws.decode_encode _ rfl, onToken_endOfKey_of_key hkey]
    exact closeWhole_refines (by simp) (holds_absorbKey_openFrame op key e) hH (by simp) (by simp) hm
  | failed =>
    rw [terminatorToken, Laws.decode_encode _ rfl, onToken_errOfKey_of_key hkey]
    exact closeFailed_refines (by simp) (by simp) (by simp) hm

/-! ### Feeding tokens -/

theorem feed_of_consumed {e e' : Engine cfg} {tok : Token} {rsp : Option Byte} (ts : List Token)
    (htok : onToken (decode tok) e = ⟨e', rsp, true⟩) :
    feed e (tok :: ts) = ((feed e' ts).1, rsp.toList ++ (feed e' ts).2.1, (feed e' ts).2.2) := by
  rw [feed, htok]; rfl

theorem feed_of_silent {e e' : Engine cfg} {tok : Token} (ts : List Token)
    (htok : onToken (decode tok) e = ⟨e', none, true⟩) : feed e (tok :: ts) = feed e' ts :=
  feed_of_consumed ts htok

/-- An open frame absorbs the BYTE tokens of a key. -/
theorem feed_keyTokens (key : List Byte) (ts : List Token) {e : Engine cfg} (hm : e.mode = .key) :
    feed e (keyTokens key ++ ts) = feed (absorbKey key e) ts := by
  induction key generalizing e with
  | nil => rfl
  | cons b key ih =>
    have htok : onToken (decode (encode (.byte b))) e = ⟨absorbByte b e, none, true⟩ := by
      rw [Laws.decode_encode _ rfl, onToken_byte_of_key hm]
    exact (feed_of_silent (keyTokens key ++ ts) htok).trans (ih ((absorbByte_mode b e).trans hm))

/-- From IDLE the tokens of a command up to its terminator leave the frame open with the key absorbed. -/
theorem feed_frameTokens {e : Engine cfg} (hm : e.mode = .idle) (c : Command) :
    feed e (frameTokens c) = feed (absorbKey c.key (openFrame c.op e)) [terminatorToken c.term] :=
  (feed_of_silent _ (onToken_opens hm (opcode?_decode_cmdToken c.op))).trans (feed_keyTokens c.key _ rfl)

/-! ### Commands on the machine -/

theorem length_frameTokens (c : Command) : (frameTokens c).length = c.key.length + 2 := by
  simp [frameTokens, keyTokens]

/-- A frame that ends with END leaves the engine in IDLE and answers, never with RESP_HASH_ERROR (40 R100). -/
theorem frameIdle_of_whole {e : Engine cfg} {c : Command} (hm : e.mode = .idle) (hc : c.term = .whole) :
    (frameIdle e c).1.mode = .idle ∧ ∃ rsp, (frameIdle e c).2 = some rsp ∧ rsp ≠ 0x80 := by
  unfold frameIdle
  rw [hc]
  split_ifs with hres hins
  · exact ⟨hm, _, rfl, by decide⟩
  · exact ⟨hm, _, rfl, by decide⟩
  · refine ⟨hm, _, rfl, ?_⟩
    obtain h | h := queryResponse_cases _ <;> rw [h] <;> decide

/-- The machine runs a command at the front of the IN channel to its frame-level result (30 R82). -/
theorem run_command {s : State} {c : Command} {rest : List Token} (hs : Ready s)
    (hi : s.inq = frameTokens c ++ rest) :
    ∃ t : State, Sys2Proof.core.run (c.key.length + 2) s = .next t ∧
      SameButDead t.engine (frameIdle s.engine c).1 ∧ t.outq = s.outq ++ (frameIdle s.engine c).2.toList ∧
      t.inq = rest ∧ t.rst = false ∧ t.seedIn = s.seedIn := by
  have hrun := run_to_terminator c rest hs hi
  obtain ⟨hm, hr⟩ := hs
  obtain ⟨e', htok, hsame⟩ := onToken_terminator_refines (c := c) bfe_blockHash hm
  generalize he : absorbKey c.key (openFrame c.op s.engine) = e at hrun htok
  have hopen : e.mode ≠ .halted := by simp [← he]
  have hend := step_of_consumed (s := { s with engine := e, inq := terminatorToken c.term :: rest }) hr rfl hopen htok
  exact ⟨_, run_then_step hrun hend, hsame, rfl, rfl, hr, rfl⟩

/-- Commands that all end with END: each is answered, and the engine is between frames again (40 R100). -/
theorem run_commandTokens {cs : List Command} {s : State} (hs : Ready s) (hwhole : NeverFails cs)
    (hi : s.inq = commandTokens cs) :
    ∃ (t : State) (rs : List Byte), Sys2Proof.core.run (commandTokens cs).length s = .next t ∧ Ready t ∧
      t.inq = [] ∧ t.outq = s.outq ++ rs ∧ rs.length = cs.length ∧ ∀ rsp ∈ rs, rsp ≠ 0x80 := by
  induction cs generalizing s with
  | nil => exact ⟨s, [], rfl, hs, hi, by simp, rfl, by simp⟩
  | cons c cs ih =>
    obtain ⟨hc, hcs⟩ := List.forall_mem_cons.1 hwhole
    obtain ⟨u, hrun, hsame, houtq, hinq, hr, -⟩ := run_command hs (rest := commandTokens cs) hi
    have ⟨hm, _⟩ := hs
    obtain ⟨hidle, rsp, hrsp, hne⟩ := frameIdle_of_whole hm hc
    obtain ⟨t, rs, hrun', ht, hinq', houtq', hlen, hrs⟩ := ih ⟨hsame.mode_eq.trans hidle, hr⟩ hcs hinq
    have hsteps : (commandTokens (c :: cs)).length = c.key.length + 2 + (commandTokens cs).length := by
      simp [commandTokens, length_frameTokens]
    refine ⟨t, rsp :: rs, ?_, ht, hinq', ?_, by simp [hlen], List.forall_mem_cons.2 ⟨hne, hrs⟩⟩
    · rw [hsteps, run_add _ _ _ _ hrun, hrun']
    · rw [houtq', houtq, hrsp]; simp

end Sys2Proof.Machine
end

section
/-! PROOFS, family 30_encoding: the statements about tokens, frames and commands. -/

namespace Sys2Proof.Laws

open Sys2Proof.Machine

/-! ### Streaming and refinement -/

/-- Settles O48: the frame holds the key, and END's finish of a held key is its whole-key hash. -/
theorem streamingEqualsWholeKey : Obligations.StreamingEqualsWholeKey := by
  refine ⟨fun cfg e op key => holds_absorbKey_openFrame op key e, fun e op key i => ?_⟩
  have hk := holds_absorbKey_openFrame op key e
  have hseed : (absorbKey key (openFrame op e)).seed = e.seed := by simp
  have hfinish := hk.hashFinish_eq bfe_blockHash i
  have hidx := hk.pipelineIndices_eq bfe_blockHash
  rw [hseed] at hfinish hidx
  exact ⟨hfinish, hidx⟩

/-- Settles O49: the frame's tokens leave the terminator, which closes the frame with the frame-level result. -/
theorem tokenLevelRefinesFrameLevel : Obligations.TokenLevelRefinesFrameLevel := by
  intro cfg e c hH hm
  obtain ⟨e', htok, hsame⟩ := onToken_terminator_refines (c := c) hH hm
  refine ⟨e', ?_, hsame⟩
  rw [feed_frameTokens hm, feed_of_consumed [] htok]
  simp [feed]

/-- Settles O50: `run_command`. -/
theorem everyCommandRunsToItsFrameLevelResult : Obligations.EveryCommandRunsToItsFrameLevelResult :=
  fun _ _ _ => run_command

/-- Settles O60: the run over all commands, one response for each. -/
theorem unfailingHostNeverHaltsTheEngine : Obligations.UnfailingHostNeverHaltsTheEngine := by
  intro s cs hs hwhole hi
  obtain ⟨t, rs, hrun, ht, hinq, houtq, hlen, hrs⟩ := run_commandTokens hs hwhole hi
  refine ⟨t, hrun, ht, hinq, by rw [houtq, List.length_append, hlen], ?_⟩
  rw [houtq, List.drop_left]
  exact hrs

/-- Settles O20: `Holds.pipelineIndices_eq`, read slot by slot modulo `C = 32`. -/
theorem indicesAtEndAreHashKey : Obligations.IndicesAtEndAreHashKey := by
  intro e key hk
  have hidx := hk.pipelineIndices_eq bfe_blockHash
  refine ⟨hidx, fun i => ?_⟩
  rw [hidx, hashKey_getElem]
  rfl

/-! ### The framing rules -/

/-- Settles O13: `onToken_opens`, accepted without a response. -/
theorem cmdTokenOpensAFrame : Obligations.CmdTokenOpensAFrame :=
  fun _ _ _ hi hm => exec_of_silent (by simp [hm]) (onToken_opens hm hi)

/-- Settles O16: `absorbByte`, accepted without a response. -/
theorem byteTokenIsAbsorbed : Obligations.ByteTokenIsAbsorbed :=
  fun d _ hm => exec_of_silent (by simp [hm]) (onToken_byte_of_key hm d)

/-- Settles O17: `onToken_stray` for the three tokens that open no frame. -/
theorem strayTokensAreDiscarded : Obligations.StrayTokensAreDiscarded := by
  intro d s hm
  have hstray (i : Instr) (hi : i.opcode? = none) : exec i s = .next { s with inq := s.inq.tail } :=
    exec_of_silent (by simp [hm]) (onToken_stray hm hi)
  exact ⟨hstray _ rfl, hstray _ rfl, hstray _ rfl⟩

/-- Settles O14: a fatal failure halts with the CMD token kept, any other closes the frame and leaves IDLE. -/
theorem cmdInOpenFrameIsErrThenCmd : Obligations.CmdInOpenFrameIsErrThenCmd := by
  intro i op d s hi hm
  have hrun : s.engine.mode ≠ .halted := by simp [hm]
  have herr := onToken_errOfKey_of_key hm d
  refine ⟨_, exec_of_onToken (s := { s with inq := _ }) hrun herr, ?_⟩
  by_cases hf : FailsFatally s.engine
  · rw [closeFailed_of_failsFatally hf]
    refine ⟨fun h => absurd rfl h, fun _ => ⟨?_, rfl⟩⟩
    rw [exec_of_onToken hrun (onToken_halts hm hi hf)]; rfl
  · rw [closeFailed_of_not_failsFatally hf]
    refine ⟨fun _ => ?_, fun h => by simp at h⟩
    rw [exec_of_onToken hrun (onToken_reopens hm hi hf), exec_of_silent (by simp) (onToken_opens rfl hi)]; rfl

/-- Settles O15: the failure response by opcode, or the halt. -/
theorem cmdTokenBreaksAnOpenFrame : Obligations.CmdTokenBreaksAnOpenFrame := by
  intro i op s hi hm
  have hrun : s.engine.mode ≠ .halted := by simp [hm]
  refine ⟨fun hins => ?_, fun hins hqry => ?_, fun hqry => ?_⟩
  · have htok := onToken_reopens hm hi (not_failsFatally_of_op_ne (by simp [hins]))
    rw [hins] at htok
    exact exec_of_onToken hrun htok
  · have htok := onToken_reopens hm hi (not_failsFatally_of_op_ne hqry)
    rw [failureResponse_of_reserved hins hqry] at htok
    exact exec_of_onToken hrun htok
  · have htok := onToken_halts hm hi (failsFatally_bfe_iff.2 hqry)
    exact ⟨_, exec_of_onToken hrun htok, sameButDead_refl _, rfl, List.append_nil _, rfl, rfl⟩

/-! ### How a frame ends -/

/-- Settles O18: `closeWhole` of an INSERT frame, the storage word by word. -/
theorem endExecutesInsert : Obligations.EndExecutesInsert := by
  intro d s hm hop
  have htok := (onToken_endOfKey_of_key hm d).trans (closeWhole_of_insert hop)
  rw [insertBits_eq_or_mask] at htok
  exact exec_of_closing hm htok (sameButDead_refl _)

/-- Settles O19: `closeWhole` of a QUERY frame, with the answer that `queryBits_eq_true_iff` gives. -/
theorem endAnswersQuery : Obligations.EndAnswersQuery := by
  intro d s hm hop
  have htok := (onToken_endOfKey_of_key hm d).trans (closeWhole_of_query hop)
  refine ⟨fun hall => ?_, fun ⟨i, hi⟩ => ?_⟩
  · rw [(queryBits_eq_true_iff _ _).2 hall] at htok
    exact exec_of_closing hm htok (sameButDead_refl _)
  · have hfalse : queryBits s.engine.bits (pipelineIndices s.engine) = false := by
      rw [Bool.eq_false_iff, Ne, queryBits_eq_true_iff]
      exact fun hall => by rw [hall i] at hi; cases hi
    rw [hfalse] at htok
    exact exec_of_closing hm htok (sameButDead_refl _)

/-- Settles O21: END and ERR raise IllegalCommand, and so does a CMD token before it opens its own frame. -/
theorem reservedOpcodeAnswersIllegal : Obligations.ReservedOpcodeAnswersIllegal := by
  intro d s hm hins hqry
  have hend := (onToken_endOfKey_of_key hm d).trans (closeWhole_of_reserved hins hqry)
  have herr := (onToken_errOfKey_of_key hm d).trans
    (closeFailed_of_not_failsFatally (not_failsFatally_of_op_ne hqry))
  rw [failureResponse_of_reserved hins hqry] at herr
  refine ⟨exec_of_closing hm hend (sameButDead_refl _), exec_of_closing hm herr (sameButDead_refl _),
    fun i op hi => ?_⟩
  obtain ⟨-, hreserved, -⟩ := cmdTokenBreaksAnOpenFrame i op s hi hm
  exact ⟨_, hreserved hins hqry, rfl, rfl, rfl, rfl, rfl⟩

/-- Settles O22: ERR on an INSERT frame raises HashError, which keeps BITS. -/
theorem failedInsertAnswersHashError : Obligations.FailedInsertAnswersHashError := by
  intro d s hm hop
  have herr := (onToken_errOfKey_of_key hm d).trans
    (closeFailed_of_not_failsFatally (not_failsFatally_of_op_ne (by simp [hop])))
  rw [hop] at herr
  obtain ⟨t, hexec, hsame⟩ := exec_of_closing hm herr (sameButDead_refl _)
  have ⟨⟨_, hbits, _⟩, _⟩ := hsame
  refine ⟨t, hexec, hsame, fun idx => ?_⟩
  rw [hbits]
  exact failedInsertEnvelope_refl idx _

/-- Settles O23: QueryFatal by ERR, and by a CMD token as `cmdTokenBreaksAnOpenFrame` says. -/
theorem failedQueryHaltsTheEngine : Obligations.FailedQueryHaltsTheEngine := by
  intro d s hm hop
  refine ⟨?_, fun i op hi => ?_⟩
  · have herr := (onToken_errOfKey_of_key hm d).trans (closeFailed_of_failsFatally (failsFatally_bfe_iff.2 hop))
    exact ⟨_, exec_of_silent (by simp [hm]) herr, rfl, sameButDead_refl _, rfl, rfl, rfl, rfl⟩
  · obtain ⟨-, -, hquery⟩ := cmdTokenBreaksAnOpenFrame i op s hi hm
    obtain ⟨t, hexec, hsame⟩ := hquery hop
    exact ⟨t, hexec, hsame.halted_eq, hsame⟩

/-- Settles O24: under PROPAGATE no failure is fatal, and a QUERY's is reported like an INSERT's. -/
theorem propagatedQueryFailureAnswersHashError : Obligations.PropagatedQueryFailureAnswersHashError := by
  intro cfg e d hpol hm hop
  have hf : ¬ FailsFatally e := not_failsFatally_of_propagate hpol
  have hrsp : failureResponse e.op = 0x80 := by rw [hop]; rfl
  refine ⟨⟨e.setMode .idle, ?_, sameButDead_refl _⟩, fun i op hi => ?_⟩
  · rw [onToken_errOfKey_of_key hm, closeFailed_of_not_failsFatally hf, hrsp]
  · rw [onToken_reopens hm hi hf, hrsp]; rfl

/-! ### Rules about every step -/

/-- Settles O32: the responses of a token step by whether it closes a frame. -/
theorem oneResponsePerClosedFrame : Obligations.OneResponsePerClosedFrame := by
  intro s t tok ts hr hi h
  obtain ⟨-, rfl⟩ := exec_next ((step_of_token hr hi).symm.trans h)
  have htok := tokenStep_onToken (decode tok) s.engine
  refine ⟨(onToken (decode tok) s.engine).response.toList, rfl, ?_⟩
  split_ifs with hclosing
  · obtain ⟨hkey, hbyte, hrun⟩ := hclosing
    obtain ⟨rsp, hrsp⟩ := htok.response_of_closing hkey hbyte hrun
    rw [hrsp]; rfl
  · rw [htok.response_of_not_closing hclosing]; rfl

/-- Settles O33: `TokenStep.response_mem`, and the field view of five literal bytes. -/
theorem onlyTheFiveResponsesAreEmitted : Obligations.OnlyTheFiveResponsesAreEmitted := by
  refine ⟨fun s t hr h => ?_, by decide⟩
  obtain ⟨hr', -⟩ | ⟨-, -, -, rfl⟩ | ⟨-, tok, ts, -, -, rfl⟩ := step_next h
  · simp [hr] at hr'
  · exact ⟨[], by simp, by simp⟩
  · exact ⟨_, rfl, (tokenStep_onToken (decode tok) s.engine).response_mem⟩

/-- Settles O8: `step_of_waiting`. -/
theorem engineWaitsForAToken : Obligations.EngineWaitsForAToken :=
  fun _ hm hr hi => step_of_waiting hr hi hm

/-- Settles O25: HALTED refuses tokens and steps, and only the reset step constructs a new engine. -/
theorem haltedEngineConsumesNothing : Obligations.HaltedEngineConsumesNothing := by
  intro s hm
  exact ⟨exec_of_halted hm, fun hr => step_of_halted hr hm, fun hr => ⟨resetStep s, step_of_reset hr, rfl⟩⟩

/-- Settles O35: END is one token step whatever its DATA, and so is ERR. -/
theorem terminatorDataIsIgnored : Obligations.TerminatorDataIsIgnored := by
  rintro s d d' ts i j (⟨rfl, rfl⟩ | ⟨rfl, rfl⟩) hr
  · exact step_congr_of_terminators rfl rfl rfl hr
  · exact step_congr_of_terminators rfl rfl rfl hr

end Sys2Proof.Laws
end

section
/-! PROOFS, family 40_hash_derivation: rotation, the cutting of a key into blocks, the bits of a mask, and the worked
example of a false positive. -/

namespace Sys2Proof.Machine

variable {cfg : Config}

/-! ### Words -/

theorem rotl32_eq_rotateLeft (x : Word) {r : Nat} (hr : r < 32) : rotl32 x r = x.rotateLeft r := by
  rw [rotl32, BitVec.rotateLeft_def, Nat.mod_eq_of_lt hr]

/-- A bit moves up by the amount, and past the top it comes in at the bottom (40 R86). -/
theorem rotl32_getLsbD (x : Word) {r n : Nat} (hr : r < 32) (hn : n < 32) :
    (rotl32 x r).getLsbD ((n + r) % 32) = x.getLsbD n := by
  rw [rotl32_eq_rotateLeft x hr, BitVec.getLsbD_rotateLeft, Nat.mod_eq_of_lt hr]
  by_cases hwrap : n + r < 32
  · have hsub : n + r - r = n := by omega
    simp [Nat.mod_eq_of_lt hwrap, hwrap, hsub]
  · have hmod : (n + r) % 32 = n + r - 32 := by omega
    have hlow : n + r - 32 < r := by omega
    have hback : 32 - r + (n + r - 32) = n := by omega
    simp [hmod, hlow, hback]

theorem leWord_singleton (a : Byte) : leWord [a] = a.setWidth 32 := by simp [leWord]

theorem leWord_pair (a b : Byte) : leWord [a, b] = a.setWidth 32 ||| (b.setWidth 32 <<< 8) := by
  rw [leWord, leWord_singleton]

theorem leWord_triple (a b c : Byte) :
    leWord [a, b, c] = a.setWidth 32 ||| (b.setWidth 32 <<< 8) ||| (c.setWidth 32 <<< 16) := by
  rw [leWord, leWord_pair, BitVec.shiftLeft_or_distrib, ← BitVec.shiftLeft_add, BitVec.or_assoc]

theorem leWord_quadruple (a b c d : Byte) : leWord [a, b, c, d] =
    a.setWidth 32 ||| (b.setWidth 32 <<< 8) ||| (c.setWidth 32 <<< 16) ||| (d.setWidth 32 <<< 24) := by
  rw [leWord, leWord_triple]
  simp only [BitVec.shiftLeft_or_distrib, ← BitVec.shiftLeft_add, BitVec.or_assoc]

/-! ### Keys -/

/-- Four bytes more are one complete block more (40 R89). -/
theorem length_div_four_of_block (a b c d : Byte) (rest : List Byte) :
    (a :: b :: c :: d :: rest).length / 4 = rest.length / 4 + 1 :=
  Nat.add_div_right rest.length (by decide : 0 < 4)

theorem foldBlocks_eq_foldl_range (rnd : Word → Word → Word) : ∀ (key : List Byte) (h : Word),
    foldBlocks rnd key h =
      (List.range (key.length / 4)).foldl (fun h q => rnd h (block ((key.drop (4 * q)).take 4))) h
  | a :: b :: c :: d :: rest, h => by
    rw [foldBlocks, foldBlocks_eq_foldl_range rnd rest, length_div_four_of_block, List.range_succ_eq_map,
      List.foldl_cons, List.foldl_map]
    rfl
  | [], _ | [_], _ | [_, _], _ | [_, _, _], _ => by simp [foldBlocks]

theorem tailBytes_eq_drop : ∀ key : List Byte, tailBytes key = key.drop (4 * (key.length / 4))
  | a :: b :: c :: d :: rest => by
    rw [tailBytes, tailBytes_eq_drop rest, length_div_four_of_block]
    rfl
  | [] | [_] | [_, _] | [_, _, _] => by simp [tailBytes]

/-! ### Reduction -/

theorem bitIndex_bfe_val (h : Word) : (bitIndex Config.bfe h).val = (h.extractLsb' 0 5).toNat := by
  rw [BitVec.extractLsb'_toNat]
  rfl

/-! ### Masks -/

/-- Where a bit index stands in the storage: its word and its position (20 R40). -/
def placeOf (j : Fin cfg.capacity) : Fin cfg.wordCount × Fin cfg.wordBits := (wordOf j, posOf j)

theorem placeOf_eq_iff {j : Fin cfg.capacity} {w : Fin cfg.wordCount} {b : Fin cfg.wordBits} :
    placeOf j = (w, b) ↔ j.val / cfg.wordBits = w.val ∧ j.val % cfg.wordBits = b.val := by
  rw [placeOf, Prod.mk.injEq, Fin.ext_iff, Fin.ext_iff]
  rfl

theorem mask_getLsbD_iff_placeOf (idx : Indices cfg) (p : Fin cfg.wordCount × Fin cfg.wordBits) :
    (mask idx p.1).getLsbD p.2.val = true ↔ ∃ i : Fin cfg.k, placeOf idx[i] = p := by
  rw [mask_getLsbD, List.any_eq_true]
  simp only [mem_indices_iff, Bool.and_eq_true, decide_eq_true_iff]
  constructor
  · rintro ⟨j, ⟨i, rfl⟩, hword, hpos⟩
    exact ⟨i, Prod.ext hword (Fin.ext hpos.symm)⟩
  · rintro ⟨i, rfl⟩
    exact ⟨idx[i], ⟨i, rfl⟩, rfl, rfl⟩

/-- The 1 bits of all the masks of an index vector are the places of its slots (40 R102). -/
theorem filter_mask_eq_image_placeOf (idx : Indices cfg) :
    (Finset.univ.filter fun p : Fin cfg.wordCount × Fin cfg.wordBits => (mask idx p.1).getLsbD p.2.val = true) =
      Finset.univ.image fun i : Fin cfg.k => placeOf idx[i] := by
  ext p
  simp only [Finset.mem_filter, Finset.mem_image, Finset.mem_univ, true_and, mask_getLsbD_iff_placeOf]

theorem card_filter_mask_le (idx : Indices cfg) :
    (Finset.univ.filter fun p : Fin cfg.wordCount × Fin cfg.wordBits =>
      (mask idx p.1).getLsbD p.2.val = true).card ≤ cfg.k := by
  rw [filter_mask_eq_image_placeOf]
  exact Finset.card_image_le.trans_eq (Finset.card_fin cfg.k)

/-- There is a slot, and its bit is set in the mask of its word (40 R98). -/
theorem one_le_card_filter_mask (idx : Indices cfg) :
    1 ≤ (Finset.univ.filter fun p : Fin cfg.wordCount × Fin cfg.wordBits =>
      (mask idx p.1).getLsbD p.2.val = true).card := by
  rw [filter_mask_eq_image_placeOf, Nat.one_le_iff_ne_zero, Finset.card_ne_zero, Finset.image_nonempty]
  exact ⟨⟨0, cfg.k_pos⟩, Finset.mem_univ _⟩

/-- The bits of one word's mask are some of the bits of all the masks. -/
theorem card_filter_mask_word_le (idx : Indices cfg) (w : Fin cfg.wordCount) :
    (Finset.univ.filter fun b : Fin cfg.wordBits => (mask idx w).getLsbD b.val = true).card ≤ cfg.k := by
  refine le_trans (Finset.card_le_card_of_injOn (fun b => (w, b)) ?_ ?_) (card_filter_mask_le idx)
  · intro b hb
    simpa using hb
  · exact (Prod.mk_right_injective w).injOn

/-! ### Commands in order -/

theorem frames_cons {e e' e'' : Engine cfg} {c : Command} {cs : List Command} {r : Option Byte} {rs : List Byte}
    (hc : frame e c = some (e', r)) (hcs : frames e' cs = some (e'', rs)) :
    frames e (c :: cs) = some (e'', r.toList ++ rs) := by
  simp [frames, hc, hcs]

/-! ### The worked example of 42 R124, command by command (95 P3) -/

/-- The filter of the example: as reset leaves it under its seeds, but with the given value of its one storage word. -/
def exampleFilter (word : Word) : Engine Config.bfe :=
  { construct Config.bfe (packSeeds #v[0x00000000, 0x00000001, 0x9747B28C]) with bits := #v[word] }

theorem construct_eq_exampleFilter :
    construct Config.bfe (packSeeds #v[0x00000000, 0x00000001, 0x9747B28C]) = exampleFilter 0x00000000 :=
  rfl

/-- `"key"` has the indices 4, 12 and 15. -/
theorem exampleFilter_insert_key :
    frame (exampleFilter 0x00000000) ⟨0x01, [0x6B, 0x65, 0x79], .whole⟩ =
      some (exampleFilter 0x00009010, some 0x00) :=
  rfl

/-- `"a"` has the indices 18, 8 and 6. -/
theorem exampleFilter_insert_a :
    frame (exampleFilter 0x00009010) ⟨0x01, [0x61], .whole⟩ =
      some (exampleFilter 0x00049150, some 0x00) :=
  rfl

/-- `"b"` has the indices 3, 7 and 24. -/
theorem exampleFilter_insert_b :
    frame (exampleFilter 0x00049150) ⟨0x01, [0x62], .whole⟩ =
      some (exampleFilter 0x010491D8, some 0x00) :=
  rfl

/-- `"q"` has the indices 8, 7 and 24. -/
theorem exampleFilter_query_q :
    frame (exampleFilter 0x010491D8) ⟨0x02, [0x71], .whole⟩ =
      some (exampleFilter 0x010491D8, some 0x11) :=
  rfl

end Sys2Proof.Machine
end

section
/-! PROOFS, family 40_hash_derivation: the statements. -/

namespace Sys2Proof.Laws

open Sys2Proof.Machine

/-- Settles O40: the 1 bits are the places of the slots, at least one place and at most `K`. -/
theorem maskHoldsExactlyTheIndexedBits : Obligations.MaskHoldsExactlyTheIndexedBits := by
  intro cfg idx
  refine ⟨fun w b => ?_, card_filter_mask_word_le idx, one_le_card_filter_mask idx, card_filter_mask_le idx⟩
  rw [mask_getLsbD_iff_placeOf idx (w, b)]
  exact exists_congr fun _ => placeOf_eq_iff

/-- Settles O44: `rotl32` is the library's rotation, which either shifts a bit or wraps it. -/
theorem rotateMovesEachBit : Obligations.RotateMovesEachBit :=
  fun x _ _ _ hr hn => rotl32_getLsbD x (Nat.lt_succ_of_le hr) hn

/-- Settles O45: the little-endian words byte by byte, and the key four bytes at a time. -/
theorem keyIsCutIntoLittleEndianBlocks : Obligations.KeyIsCutIntoLittleEndianBlocks :=
  ⟨leWord_quadruple, fun a b c => ⟨leWord_singleton a, leWord_pair a b, leWord_triple a b c⟩,
    foldBlocks_eq_foldl_range, tailBytes_eq_drop⟩

/-- Settles O46: computed; every operand is a literal of the spec. -/
theorem hashWorkedExamples : Obligations.HashWorkedExamples := by
  unfold Obligations.HashWorkedExamples
  decide

/-- Settles O47: the reduction by definition, and `C = 2 ^ 5` here. -/
theorem reductionIsTheUnsignedRemainder : Obligations.ReductionIsTheUnsignedRemainder :=
  ⟨fun _ _ => rfl, bitIndex_bfe_val⟩

/-- Settles O58: of the indices of `"q"`, `"a"` sets 8 and `"b"` sets 7 and 24. -/
theorem falsePositivesArePossible : Obligations.FalsePositivesArePossible := by
  refine ⟨exampleFilter 0x010491D8, ?_, rfl, exampleFilter_query_q⟩
  rw [construct_eq_exampleFilter]
  exact frames_cons exampleFilter_insert_key
    (frames_cons exampleFilter_insert_a (frames_cons exampleFilter_insert_b rfl))

end Sys2Proof.Laws
end

section
/-! PROOFS, family 41_insert: INSERT over bits that are set already, what a command and a sequence of commands add to the
storage, and the bits of a key along a run. -/

namespace Sys2Proof.Machine

variable {cfg : Config}

/-! ### INSERT and QUERY of one index vector -/

/-- The read-modify-write of a bit that is set changes nothing (41 R111). -/
theorem setBit_of_testBit {bits : Storage cfg} {j : Fin cfg.capacity} (h : testBit bits j = true) :
    setBit bits j = bits := by
  rw [testBit_eq] at h
  apply storage_ext
  intro w n _
  rw [setBit_getElem]
  split_ifs with hw
  · rw [BitVec.getLsbD_or, bitMask_getLsbD]
    by_cases hn : n = (posOf j).val
    · rw [hn, ← hw, h, Bool.true_or]
    · rw [decide_eq_false hn, Bool.or_false]
  · rfl

theorem foldl_setBit_of_testBit {bits : Storage cfg} {js : List (Fin cfg.capacity)}
    (h : ∀ j ∈ js, testBit bits j = true) : js.foldl setBit bits = bits := by
  induction js with
  | nil => rfl
  | cons j js ih =>
    obtain ⟨hj, hjs⟩ := List.forall_mem_cons.1 h
    rw [List.foldl_cons, setBit_of_testBit hj, ih hjs]

theorem queryBits_iff_testBit (bits : Storage cfg) (idx : Indices cfg) :
    queryBits bits idx = true ↔ ∀ j ∈ idx.toList, testBit bits j = true := by
  rw [queryBits, queryLoop_eq_all, List.all_eq_true]

/-- INSERT of bits that are all set changes nothing (41 R111). -/
theorem insertBits_of_queryBits {bits : Storage cfg} {idx : Indices cfg} (h : queryBits bits idx = true) :
    insertBits bits idx = bits :=
  foldl_setBit_of_testBit ((queryBits_iff_testBit bits idx).1 h)

/-- The bits of an index vector are all set after its INSERT (41 R114). -/
theorem queryBits_insertBits (bits : Storage cfg) (idx : Indices cfg) : queryBits (insertBits bits idx) idx = true := by
  rw [queryBits_iff_testBit]
  intro j hj
  rw [insertBits, testBit_foldl_setBit, decide_eq_true hj, Bool.or_true]

/-- Bits kept stay set, so a QUERY that answers TRUE still does (42 R123). -/
theorem BitsKept.queryBits {before after : Storage cfg} (hkept : BitsKept before after) {idx : Indices cfg}
    (h : queryBits before idx = true) : queryBits after idx = true := by
  rw [queryBits_eq_true_iff] at h ⊢
  intro i
  have hi := h i
  rw [← hkept (wordOf idx[i]), BitVec.getLsbD_and, Bool.and_eq_true] at hi
  exact hi.1

theorem queryBits_of_allOnes {bits : Storage cfg}
    (h : ∀ w : Fin cfg.wordCount, bits[w] = BitVec.allOnes cfg.wordBits) (idx : Indices cfg) :
    queryBits bits idx = true := by
  rw [queryBits_eq_true_iff]
  intro i
  rw [h, BitVec.getLsbD_allOnes, decide_eq_true (posOf idx[i]).isLt]

/-! ### The frame-level function by command -/

theorem frame_of_idle {e : Engine cfg} (hm : e.mode = .idle) (c : Command) : frame e c = some (frameIdle e c) := by
  simp [frame, hm]

/-- A sequence of commands that runs takes the first from IDLE to its result (30 R82, 20 R47). -/
theorem frames_cons_next {e e' : Engine cfg} {c : Command} {cs : List Command} {rs : List Byte}
    (h : frames e (c :: cs) = some (e', rs)) : ∃ rs', frames (frameIdle e c).1 cs = some (e', rs') := by
  cases hm : e.mode with
  | key | halted => simp [frames, frame, hm] at h
  | idle =>
    rw [frames, frame_of_idle hm] at h
    obtain ⟨⟨f, rs'⟩, hcs, heq⟩ := Option.map_eq_some_iff.1 h
    obtain rfl := congrArg Prod.fst heq
    exact ⟨rs', hcs⟩

/-- An INSERT that completes stores the bits of its key and answers OK (41 R110). -/
theorem frameIdle_insert (e : Engine cfg) (key : List Byte) : frameIdle e ⟨0x01, key, .whole⟩ =
    ({ e with bits := insertBits e.bits (hashKey cfg e.seed key) }, some 0x00) := by
  rw [insertBits_eq_or_mask]; rfl

/-- A QUERY that completes answers and changes nothing (42 R120). -/
theorem frameIdle_query (e : Engine cfg) (key : List Byte) : frameIdle e ⟨0x02, key, .whole⟩ =
    (e, some (queryResponse (queryBits e.bits (hashKey cfg e.seed key)))) := by
  rw [queryBits, queryLoop_eq_all]; rfl

/-- Any other command writes neither SEED nor BITS (41 R113, 42 R120, 60 R132). -/
theorem frameIdle_of_not_inserting {e : Engine cfg} {c : Command} (h : ¬ (c.op = opInsert ∧ c.term = .whole)) :
    (frameIdle e c).1.seed = e.seed ∧ (frameIdle e c).1.bits = e.bits := by
  obtain ⟨op, key, term⟩ := c
  cases term with
  | whole =>
    dsimp only [frameIdle]
    split_ifs with hres hop
    · exact ⟨rfl, rfl⟩
    · exact absurd ⟨hop, rfl⟩ h
    · exact ⟨rfl, rfl⟩
  | failed =>
    dsimp only [frameIdle]
    split_ifs
    · exact ⟨rfl, rfl⟩
    · exact ⟨rfl, rfl⟩
    · cases cfg.queryErrPolicy <;> exact ⟨rfl, rfl⟩

/-! ### The masks of the keys inserted -/

theorem insertedMask_append (seed : Vector Word cfg.k) (w : Fin cfg.wordCount) (cs ds : List Command) :
    insertedMask cfg seed w (cs ++ ds) = insertedMask cfg seed w cs ||| insertedMask cfg seed w ds := by
  induction cs with
  | nil => exact BitVec.zero_or.symm
  | cons c cs ih => rw [List.cons_append, insertedMask, insertedMask, ih, BitVec.or_assoc]

/-- OR forgets the order of the commands (41 R112). -/
theorem insertedMask_of_perm (seed : Vector Word cfg.k) (w : Fin cfg.wordCount) {cs ds : List Command}
    (h : cs.Perm ds) : insertedMask cfg seed w cs = insertedMask cfg seed w ds := by
  induction h with
  | nil => rfl
  | cons c _ ih => rw [insertedMask, insertedMask, ih]
  | swap c d cs => simp only [insertedMask]; ac_rfl
  | trans _ _ ih₁ ih₂ => exact ih₁.trans ih₂

/-- What one command does to the seeds and to a storage word: `insertedMask` of that command alone. -/
theorem frameIdle_seed_and_bits (e : Engine cfg) (c : Command) : (frameIdle e c).1.seed = e.seed ∧
    ∀ w : Fin cfg.wordCount, (frameIdle e c).1.bits[w] = e.bits[w] ||| insertedMask cfg e.seed w [c] := by
  by_cases h : c.op = opInsert ∧ c.term = .whole
  · obtain ⟨op, key, term⟩ := c
    obtain ⟨rfl, rfl⟩ := h
    refine ⟨rfl, fun w => ?_⟩
    rw [show opInsert = 0x01 from rfl, frameIdle_insert, insertBits_eq_or_mask]
    simp [insertedMask, opInsert]
  · obtain ⟨hseed, hbits⟩ := frameIdle_of_not_inserting (e := e) h
    refine ⟨hseed, fun w => ?_⟩
    simp [hbits, insertedMask, h]

/-- A sequence of commands ORs into each word the masks of the keys it inserts (41 R112). -/
theorem frames_seed_and_bits {e e' : Engine cfg} {cs : List Command} {rs : List Byte}
    (h : frames e cs = some (e', rs)) : e'.seed = e.seed ∧
      ∀ w : Fin cfg.wordCount, e'.bits[w] = e.bits[w] ||| insertedMask cfg e.seed w cs := by
  induction cs generalizing e rs with
  | nil =>
    cases h
    exact ⟨rfl, fun w => BitVec.or_zero.symm⟩
  | cons c cs ih =>
    obtain ⟨rs', hcs⟩ := frames_cons_next h
    obtain ⟨hseed, hbits⟩ := frameIdle_seed_and_bits e c
    obtain ⟨hseed', hbits'⟩ := ih hcs
    refine ⟨hseed'.trans hseed, fun w => ?_⟩
    rw [hbits', hbits, hseed, BitVec.or_assoc, ← insertedMask_append, List.singleton_append]

/-- From an empty array each word is the OR of the masks alone (41 R112). -/
theorem frames_bits_of_empty {e e' : Engine cfg} {cs : List Command} {rs : List Byte}
    (hempty : ∀ w : Fin cfg.wordCount, e.bits[w] = 0) (h : frames e cs = some (e', rs)) (w : Fin cfg.wordCount) :
    e'.bits[w] = insertedMask cfg e.seed w cs := by
  obtain ⟨-, hbits⟩ := frames_seed_and_bits h
  rw [hbits, hempty]
  exact BitVec.zero_or

/-! ### A run over any tokens -/

theorem step_keeps_rst_false {s t : State} (hr : s.rst = false) (h : step s = .next t) : t.rst = false := by
  obtain ⟨hr', -⟩ | ⟨-, -, -, rfl⟩ | ⟨-, tok, ts, -, -, rfl⟩ := step_next h
  · simp [hr] at hr'
  · exact hr
  · exact hr

/-- Without reset HALTED is never left (30 R77). -/
theorem mode_ne_halted_of_run {s u : State} {n : Nat} (hr : s.rst = false)
    (hrun : Sys2Proof.core.run n s = .next u) (hu : u.engine.mode ≠ .halted) : s.engine.mode ≠ .halted := by
  cases n with
  | zero => cases hrun; exact hu
  | succ n =>
    intro hm
    obtain ⟨t, hstep, -⟩ := run_succ_next hrun
    rw [step_of_halted hr hm] at hstep
    cases hstep

/-- A run that does not halt the engine takes one offered token a step (30 R60, R77). -/
theorem inq_of_run {ts rest : List Token} {s u : State} (hr : s.rst = false) (hi : s.inq = ts ++ rest)
    (hrun : Sys2Proof.core.run ts.length s = .next u) (hu : u.engine.mode ≠ .halted) : u.inq = rest := by
  induction ts generalizing s with
  | nil => cases hrun; exact hi
  | cons tok ts ih =>
    have hm := mode_ne_halted_of_run hr hrun hu
    have hstep := step_of_accepted hr hi hm
    have htok := tokenStep_onToken (decode tok) s.engine
    generalize onToken (decode tok) s.engine = r at hstep htok
    rw [List.length_cons, run_step _ hstep] at hrun
    have hm' : r.engine.mode ≠ .halted := mode_ne_halted_of_run (s := s.apply r) hr hrun hu
    refine ih (s := s.apply r) hr ?_ hrun
    simp [htok.consumed_of_not_halted hm', hi]

/-- No reset is asked for, and the filter has every bit of a key: its QUERY would answer TRUE (42 R123). -/
def KeyIsStored (key : List Byte) (s : State) : Prop :=
  s.rst = false ∧ queryBits s.engine.bits (hashKey Config.bfe s.engine.seed key) = true

/-- No token takes a key out of the filter: it writes no seed and clears no bit (10 R20, R23). -/
theorem KeyIsStored.step {key : List Byte} {s t : State} (h : KeyIsStored key s) (hstep : step s = .next t) :
    KeyIsStored key t := by
  obtain ⟨hr, hquery⟩ := h
  refine ⟨step_keeps_rst_false hr hstep, ?_⟩
  rw [Laws.onlyResetWritesSeeds.1 s t hr hstep]
  exact BitsKept.queryBits (Laws.bitsAreOnlyEverSet.1 s t hr hstep) hquery

/-- An INSERT frame runs to a machine that has the key stored (41 R114). -/
theorem run_insert {s : State} {key : List Byte} {rest : List Token} (hs : Ready s)
    (hi : s.inq = frameTokens ⟨0x01, key, .whole⟩ ++ rest) :
    ∃ t : State, Sys2Proof.core.run (key.length + 2) s = .next t ∧ t.inq = rest ∧ KeyIsStored key t := by
  obtain ⟨t, hrun, ⟨hseed, hbits, -⟩, -, hinq, hr, -⟩ := run_command hs hi
  rw [frameIdle_insert] at hseed hbits
  refine ⟨t, hrun, hinq, hr, ?_⟩
  rw [hbits, hseed]
  exact queryBits_insertBits _ _

/-- A QUERY frame of a stored key answers TRUE (42 R120). -/
theorem run_query_of_keyIsStored {s : State} {key : List Byte} {rest : List Token} (hm : s.engine.mode = .idle)
    (hk : KeyIsStored key s) (hi : s.inq = frameTokens ⟨0x02, key, .whole⟩ ++ rest) :
    ∃ t : State, Sys2Proof.core.run (key.length + 2) s = .next t ∧ t.outq = s.outq ++ [0x11] ∧ t.inq = rest := by
  obtain ⟨hr, hquery⟩ := hk
  obtain ⟨t, hrun, -, houtq, hinq, -⟩ := run_command ⟨hm, hr⟩ hi
  rw [frameIdle_query, hquery] at houtq
  exact ⟨t, hrun, houtq, hinq⟩

end Sys2Proof.Machine
end

section
/-! PROOFS, family 41_insert: the statements. -/

namespace Sys2Proof.Laws

open Sys2Proof.Machine

/-- Settles O51: the INSERT frame stores the key, no token takes it out again, and the QUERY frame finds it. -/
theorem noFalseNegatives : Obligations.NoFalseNegatives := by
  intro s u key between rest hs hi hrun hu
  obtain ⟨t, hinsert, hinq, hstored⟩ := run_insert hs hi
  rw [run_add _ _ _ _ hinsert] at hrun
  have hkept : KeyIsStored key u := run_keeps (KeyIsStored key) (fun _ _ => KeyIsStored.step) _ t u hstored hrun
  have hleft : u.inq = frameTokens ⟨0x02, key, .whole⟩ ++ rest := inq_of_run hstored.1 hinq hrun (by simp [hu])
  exact run_query_of_keyIsStored hu hkept hleft

/-- Settles O55: an induction on the commands for the words, one on the permutation for the order. -/
theorem bitsAreTheOrOfTheInsertedKeys : Obligations.BitsAreTheOrOfTheInsertedKeys := by
  intro cfg e e' cs rs h
  obtain ⟨hseed, hbits⟩ := frames_seed_and_bits h
  exact ⟨hseed, hbits, fun cs' hperm w => insertedMask_of_perm e.seed w hperm⟩

/-- Settles O57: from empty arrays each word is the mask of its stream, and the mask of both streams is the OR. -/
theorem sharedSeedsMakeArraysMergeable : Obligations.SharedSeedsMakeArraysMergeable := by
  intro cfg a b c a' b' c' as bs cs ra rb rc hseedb hseedc hbitsb hbitsc hempty hperm ha hb hc w
  calc c'.bits[w] = insertedMask cfg a.seed w cs := by rw [frames_bits_of_empty (hbitsc ▸ hempty) hc, hseedc]
    _ = insertedMask cfg a.seed w as ||| insertedMask cfg a.seed w bs := by
      rw [insertedMask_of_perm _ _ hperm, insertedMask_append]
    _ = a'.bits[w] ||| b'.bits[w] := by
      rw [frames_bits_of_empty hempty ha, frames_bits_of_empty (hbitsb ▸ hempty) hb, hseedb]

/-- Settles O43: `insertBits_of_queryBits`, and INSERT sets the bits that it would set again. -/
theorem insertIsIdempotent : Obligations.InsertIsIdempotent := by
  intro cfg bits idx
  have hset := queryBits_insertBits bits idx
  exact ⟨insertBits_of_queryBits, insertBits_of_queryBits hset, hset⟩

/-- Settles O54: in a saturated storage the bits of every key are set. -/
theorem saturatedFilterStillObeysTheRules : Obligations.SaturatedFilterStillObeysTheRules := by
  intro cfg e key hm hones
  have hset := queryBits_of_allOnes hones (hashKey cfg e.seed key)
  rw [frame_of_idle hm, frame_of_idle hm, frameIdle_insert, frameIdle_query, insertBits_of_queryBits hset, hset]
  exact ⟨rfl, rfl⟩

end Sys2Proof.Laws
end

section
/-! PROOFS, family 42_query: QUERY word by word, the answer and the mode of a sequence of commands, and the bits that the
sequence keeps. -/

namespace Sys2Proof.Machine

variable {cfg : Config}

/-! ### QUERY of one index vector -/

/-- Absorption: what is ORed into a word hides no bit of it. -/
theorem word_and_or_self {w : Nat} (x y : BitVec w) : x &&& (x ||| y) = x := by
  apply BitVec.eq_of_getLsbD_eq
  intro n _
  rw [BitVec.getLsbD_and, BitVec.getLsbD_or]
  cases x.getLsbD n <;> simp

/-- Absorption: bits already in a word add nothing to it. -/
theorem word_or_and_self {w : Nat} (x y : BitVec w) : x ||| (x &&& y) = x := by
  apply BitVec.eq_of_getLsbD_eq
  intro n _
  rw [BitVec.getLsbD_or, BitVec.getLsbD_and]
  cases x.getLsbD n <;> simp

theorem queryLoop_of_perm {js ks : List (Fin cfg.capacity)} (bits : Storage cfg) (h : js.Perm ks) :
    queryLoop bits js = queryLoop bits ks := by
  rw [queryLoop_eq_all, queryLoop_eq_all, h.all_eq]

/-- QUERY is the test whether INSERT of the same indices would change nothing (41 R111). -/
theorem queryBits_iff_insertBits_eq (bits : Storage cfg) (idx : Indices cfg) :
    queryBits bits idx = true ↔ insertBits bits idx = bits :=
  ⟨insertBits_of_queryBits, fun h => h ▸ queryBits_insertBits bits idx⟩

/-- QUERY word by word, the second closed form of 42 R120. -/
theorem queryBits_iff_and_mask_eq (bits : Storage cfg) (idx : Indices cfg) :
    queryBits bits idx = true ↔ ∀ w : Fin cfg.wordCount, bits[w] &&& mask idx w = mask idx w := by
  have hor (w : Fin cfg.wordCount) : (insertBits bits idx)[w] = bits[w] ||| mask idx w :=
    Laws.insertLoopIsOrWithMask cfg bits idx idx.toList (.refl _) w
  rw [queryBits_iff_insertBits_eq]
  constructor
  · intro heq w
    rw [← congrArg (·[w]) heq, hor, BitVec.and_comm, BitVec.or_comm, word_and_or_self]
  · intro hmask
    apply Vector.ext
    intro n hn
    refine (hor ⟨n, hn⟩).trans ?_
    rw [← hmask, word_or_and_self]
    rfl

/-! ### Commands in order -/

/-- A command that does not halt the engine is answered (30 R70). -/
theorem frameIdle_answers {e : Engine cfg} {c : Command} (hm : e.mode = .idle)
    (hrun : (frameIdle e c).1.mode ≠ .halted) : ∃ r, (frameIdle e c).2 = some r := by
  cases hterm : c.term with
  | whole =>
    obtain ⟨-, r, hr, -⟩ := frameIdle_of_whole hm hterm
    exact ⟨r, hr⟩
  | failed =>
    unfold frameIdle at hrun ⊢
    rw [hterm] at hrun ⊢
    split_ifs at hrun ⊢
    · exact ⟨_, rfl⟩
    · exact ⟨_, rfl⟩
    · cases hpol : cfg.queryErrPolicy with
      | propagate => exact ⟨_, rfl⟩
      | fatal => simp [hpol] at hrun

/-- Commands run only from IDLE (30 R82). -/
theorem mode_of_frames {e : Engine cfg} {cs : List Command} {p : Engine cfg × List Byte} (hne : cs ≠ [])
    (h : frames e cs = some p) : e.mode = .idle := by
  cases cs with
  | nil => exact absurd rfl hne
  | cons c cs =>
    cases hm : e.mode with
    | idle => rfl
    | key | halted => simp [frames, frame, hm] at h

theorem frames_cons_of_idle {e e' : Engine cfg} {c : Command} {cs : List Command} {rs : List Byte}
    (hm : e.mode = .idle) (h : frames (frameIdle e c).1 cs = some (e', rs)) :
    frames e (c :: cs) = some (e', (frameIdle e c).2.toList ++ rs) :=
  frames_cons (frame_of_idle hm c) h

/-- The responses of a sequence are those of its first command, then those of the rest (20 R47). -/
theorem frames_cons_inv {e e' : Engine cfg} {c : Command} {cs : List Command} {rs : List Byte}
    (h : frames e (c :: cs) = some (e', rs)) :
    ∃ rs', frames (frameIdle e c).1 cs = some (e', rs') ∧ rs = (frameIdle e c).2.toList ++ rs' := by
  obtain ⟨rs', hcs⟩ := frames_cons_next h
  rw [frames_cons_of_idle (mode_of_frames (List.cons_ne_nil c cs) h) hcs] at h
  cases h
  exact ⟨rs', hcs, rfl⟩

/-- A sequence of commands clears no bit (10 R23). -/
theorem bitsKept_of_frames {e e' : Engine cfg} {cs : List Command} {rs : List Byte}
    (h : frames e cs = some (e', rs)) : BitsKept e.bits e'.bits := by
  obtain ⟨-, hbits⟩ := frames_seed_and_bits h
  intro w
  rw [hbits, BitVec.and_comm, word_and_or_self]

end Sys2Proof.Machine
end

section
/-! PROOFS, family 42_query: the statements. -/

namespace Sys2Proof.Laws

open Sys2Proof.Machine

/-- Settles O52: INSERT sets the bits of the key, no command clears one or changes a seed, so QUERY finds them all. -/
theorem noFalseNegativesForAnyHash : Obligations.NoFalseNegativesForAnyHash := by
  intro cfg e e' key cs rs h hm
  obtain ⟨rs', hcs⟩ := frames_cons_next h
  rw [frameIdle_insert] at hcs
  obtain ⟨hseed, -⟩ := frames_seed_and_bits hcs
  have hquery : queryBits e'.bits (hashKey cfg e.seed key) = true :=
    (bitsKept_of_frames hcs).queryBits (queryBits_insertBits _ _)
  rw [frame_of_idle hm, frameIdle_query, hseed, hquery]
  rfl

/-- Settles O56, by induction on the commands before the QUERY: each of them leaves the engine running, so each is
answered by one response, and the QUERY hands on the engine it got. -/
theorem queriesCanBeRemoved : Obligations.QueriesCanBeRemoved := by
  intro cfg e e' before after key rs h
  induction before generalizing e rs with
  | nil =>
    obtain ⟨rs', hafter, rfl⟩ := frames_cons_inv h
    rw [frameIdle_query] at hafter
    exact ⟨[], rs', _, by rw [frameIdle_query]; rfl, rfl, hafter⟩
  | cons c before ih =>
    have hm : e.mode = .idle := mode_of_frames (List.cons_ne_nil _ _) h
    obtain ⟨rs', hrest, rfl⟩ := frames_cons_inv h
    have hnext : (frameIdle e c).1.mode = .idle := mode_of_frames (by simp) hrest
    obtain ⟨rc, hrc⟩ := frameIdle_answers (c := c) hm (by simp [hnext])
    obtain ⟨ra, rb, r, rfl, hlen, hremoved⟩ := ih _ _ hrest
    refine ⟨rc :: ra, rb, r, by rw [hrc]; rfl, by simp [hlen], ?_⟩
    rw [List.cons_append, frames_cons_of_idle hm hremoved, hrc]
    rfl

/-- Settles O42: the order does not matter, and the two closed forms are QUERY slot by slot and word by word. -/
theorem queryLoopIsAllBitsSet : Obligations.QueryLoopIsAllBitsSet := by
  intro cfg bits idx order hperm
  rw [queryLoop_of_perm bits hperm]
  exact ⟨queryBits_eq_true_iff bits idx, queryBits_iff_and_mask_eq bits idx⟩

end Sys2Proof.Laws
end

section
/-! PROOFS, family 60_exceptions: which report a token step makes when it writes the storage (60 R137). -/

namespace Sys2Proof.Machine

variable {cfg : Config} {e : Engine cfg} {i : Instr} {r : TokenResult cfg}

/-- The only token step that writes the storage completes an INSERT, and what it reports is RESP_OK (41 R110). -/
theorem TokenStep.bits_eq_or_completed (h : TokenStep e i r) :
    r.engine.bits = e.bits ∨ (r.response = some 0x00 ∧ r.engine.mode = .idle) := by
  cases h with
  | inserted => exact .inr ⟨rfl, rfl⟩
  | _ => exact .inl (by simp)

end Sys2Proof.Machine
end

section
/-! PROOFS, family 60_exceptions: the statements. -/

namespace Sys2Proof.Laws

open Sys2Proof.Machine

/-- Settles O34: no step without reset writes a seed, and the one that writes the storage reports no exception. -/
theorem exceptionsArePrecise : Obligations.ExceptionsArePrecise := by
  intro s t hr h hexn
  have hseed : t.engine.seed = s.engine.seed := onlyResetWritesSeeds.1 s t hr h
  refine ⟨?_, hseed⟩
  obtain ⟨hr', -⟩ | ⟨-, -, -, rfl⟩ | ⟨-, tok, ts, -, -, rfl⟩ := step_next h
  · simp [hr] at hr'
  · rfl
  · obtain hkept | ⟨hok, hidle⟩ := (tokenStep_onToken (decode tok) s.engine).bits_eq_or_completed
    · exact hkept
    · simp [hok, hidle] at hexn

end Sys2Proof.Laws
end

section
/-! PROOFS, family 70_reset_and_hazards: the seed port as the digits of a number in base 2^32 (70 R156). -/

namespace Sys2Proof.Machine

variable {k : Nat}

/-- Digit `i` of the number that a list of digits stands for. -/
theorem ofDigits_div_pow_mod {p i : Nat} {digits : List Nat} (hlt : ∀ d ∈ digits, d < p) (hi : i < digits.length) :
    Nat.ofDigits p digits / p ^ i % p = digits[i] := by
  have hdigit : digits[i] < p := hlt _ (List.getElem_mem hi)
  have hp : 0 < p := Nat.zero_lt_of_lt hdigit
  rw [Nat.ofDigits_div_pow_eq_ofDigits_drop i hp digits hlt, List.drop_eq_getElem_cons hi, Nat.ofDigits_cons,
    Nat.add_mul_mod_self_left, Nat.mod_eq_of_lt hdigit]

/-- The words on the port, as digits in base 2^32. -/
def seedDigits (v : Vector Word k) : List Nat := v.toList.map BitVec.toNat

@[simp] theorem length_seedDigits (v : Vector Word k) : (seedDigits v).length = k := by simp [seedDigits]

@[simp] theorem getElem_seedDigits (v : Vector Word k) (i : Nat) (h : i < (seedDigits v).length) :
    (seedDigits v)[i] = (v[i]'(length_seedDigits v ▸ h)).toNat := by simp [seedDigits]

theorem seedDigits_lt (v : Vector Word k) : ∀ d ∈ seedDigits v, d < 2 ^ 32 := by
  intro d hd
  obtain ⟨w, -, rfl⟩ := List.mem_map.mp hd
  exact w.isLt

/-- The number on the port has the words as its digits: `K` of them fit in `32*K` bits. -/
theorem packSeeds_toNat (v : Vector Word k) : (packSeeds v).toNat = Nat.ofDigits (2 ^ 32) (seedDigits v) := by
  have hfits : Nat.ofDigits (2 ^ 32) (seedDigits v) < 2 ^ (32 * k) := by
    simpa [Nat.pow_mul] using Nat.ofDigits_lt_base_pow_length (by decide : 1 < 2 ^ 32) (seedDigits_lt v)
  have hfold : v.toList.foldr (fun w acc => w.toNat + 2 ^ 32 * acc) 0 = Nat.ofDigits (2 ^ 32) (seedDigits v) := by
    simp [Nat.ofDigits_eq_foldr, seedDigits, List.foldr_map]
  rw [packSeeds, hfold, BitVec.toNat_ofNat, Nat.mod_eq_of_lt hfits]

/-- Slice `i` of the port is digit `i` of its number. -/
theorem seedSlice_toNat (seedIn : BitVec (32 * k)) (i : Nat) :
    (seedSlice seedIn i).toNat = seedIn.toNat / (2 ^ 32) ^ i % 2 ^ 32 := by
  rw [seedSlice, BitVec.extractLsb'_toNat, Nat.shiftRight_eq_div_pow, Nat.pow_mul]

end Sys2Proof.Machine
end

section
/-! PROOFS, family 70_reset_and_hazards: the statements. -/

namespace Sys2Proof.Laws

open Sys2Proof.Machine

/-- Settles O12: slice `i` is digit `i` of the number whose digits are the words. -/
theorem seedPortCarriesAnyWords : Obligations.SeedPortCarriesAnyWords := by
  intro k v i
  apply BitVec.eq_of_toNat_eq
  calc (seedSlice (packSeeds v) i.val).toNat
      _ = Nat.ofDigits (2 ^ 32) (seedDigits v) / (2 ^ 32) ^ i.val % 2 ^ 32 := by rw [seedSlice_toNat, packSeeds_toNat]
      _ = (seedDigits v)[i.val]'(by simp) := ofDigits_div_pow_mod (seedDigits_lt v) _
      _ = v[i].toNat := getElem_seedDigits v i.val _

/-- Settles O11: both steps are the reset step, whose engine and OUT queue depend on the port alone. -/
theorem equalSeedPortsGiveEqualInstances : Obligations.EqualSeedPortsGiveEqualInstances := by
  intro s t s' t' hs ht hseed hstep hstep'
  rw [step_of_reset hs] at hstep
  rw [step_of_reset ht] at hstep'
  cases hstep
  cases hstep'
  rw [resetStep_engine, resetStep_engine, hseed]
  exact ⟨sameButDead_refl _, rfl⟩

end Sys2Proof.Laws
end
